-- ==== Sys2Proof/Word.lean ====
section
/-! DEFINITION. The word types of HHMIX: spec/00_scope.md R7 and R8. On `Word` the spec's `+`, `*`, `^`, `&`, `|`,
`<<` and `>>` are BitVec's own wrapping and logical operations. -/

namespace Sys2Proof

/-- `U64` of R7: every key word, lane, digest, address, length and queue entry. -/
abbrev Word := BitVec 64

/-- `U32` of R7: one half of a lane. -/
abbrev Half := BitVec 32

/-- `U8` of R7: one message byte. -/
abbrev Byte := BitVec 8

/-- Four 64-bit registers `X[0..3]`: the key, one bank of lane registers, or the lane words of one block. -/
structure Quad where
  x0 : Word
  x1 : Word
  x2 : Word
  x3 : Word
  deriving DecidableEq, Repr

/-- Four registers holding zero. -/
abbrev Quad.zero : Quad := ⟨0, 0, 0, 0⟩

end Sys2Proof
end

