-- ==== Sys2Proof/Config.lean ====
section
/-! DEFINITION. What is fixed for one machine and what the spec leaves open: the algorithm and backend names
(30_encoding.md R63, R64), the capability constant (43_backend_dispatch.md R150), the `OPEN` parameters of
00_scope.md R6 as plain data, and the free values, which have no body. The parameters with a value the spec states
(`COMBINE_K`, block sizes, round counts) are in Machine/Parameters.lean. -/

namespace Sys2Proof

/-- The algorithms of R63; the code 3 is reserved and never held (10_state.md R23), so it has no constructor. -/
inductive Alg where
  | hwy
  | sip24
  | sip13
  deriving DecidableEq, Repr

/-- The backends of R64. -/
inductive Backend where
  | dispatch
  | scalar
  | sse41
  | avx2
  deriving DecidableEq, Repr

/-- The vectorised engines the dispatcher of R150 would look for. -/
inductive Accel where
  | sse41
  | avx2
  deriving DecidableEq, Repr

/-- `CAPS`, the capability set: the constant empty set (10_state.md R33, R150), so a type with one value. -/
inductive Caps where
  | empty
  deriving DecidableEq, Repr

/-- Which value the `OPEN` parameter `DIGEST_FN` of R6 takes (40_scalar_digest_engine.md R80, 92 D19). -/
inductive Engine where
  /-- The reference instantiation of 41 and 42, the spec's recommended default. PRESUMED (log 4). -/
  | reference
  /-- A digest function of which nothing is known but R81; `id` names one of any number of them. -/
  | uninterpreted (id : Nat)
  deriving DecidableEq, Repr

/-- What a region of `MSG` is, where it is not plain readable memory. -/
inductive RegionKind where
  /-- `MsgReadable` is false there (20_memory.md R48, R50). -/
  | unreadable
  /-- Reads there have side effects; the platform must not do this (R47) and the model refuses it. -/
  | sideEffect
  deriving DecidableEq, Repr

/-- A region of the platform's address map: the addresses from `base`, `size` of them. -/
structure Region where
  base : Nat
  size : Nat
  kind : RegionKind
  deriving DecidableEq, Repr

/-- The `OPEN` parameters of R6 as plain data (log 3). An address in no region is plain readable memory, so every
predicate `MsgReadable` on the 2^64 addresses is some list of regions. A depth of `none` is an unbounded queue. -/
structure Params where
  regions : List Region
  cmdqDepth : Option Nat
  outqDepth : Option Nat
  engine : Engine
  deriving DecidableEq, Repr

/-- The parameters State.reset is given: R6 and 92 D11, D23, D19 let a model take `MsgReadable` everywhere true, both
queues unbounded and the reference instantiation. DESIGN CHOICE (log 3, log 4, log 22). -/
def Params.default : Params :=
  { regions := [], cmdqDepth := none, outqDepth := none, engine := .reference }

namespace Config

/-- The uninterpreted digest functions: `digestFn id alg k m`. It has no body, so a proof may use R81 (a total pure
function of the algorithm, the key words and the message bytes) and nothing else. -/
opaque digestFn : Nat → Alg → List Word → List Byte → Word

/-- Free value: what lane register number `i` holds after the `n`-th draw (10_state.md R30, log 5). -/
opaque freeLane : (n i : Nat) → Word

/-- Free value: what `PKT[i]` holds after the `n`-th draw (10_state.md R30, log 5). -/
opaque freePkt : (n i : Nat) → Byte

end Config

end Sys2Proof
end

