-- ==== Sys2Proof/Machine/Parameters.lean ====
section
/-! DEFINITION. The parameters of 00_scope.md R6 whose value the spec states. -/

namespace Sys2Proof.Machine

/-- `COMBINE_K` (R6, 44_streaming_combiner.md R162): the source's literal. UNVERIFIED beyond the source (93 U9, log 15). -/
def combineK : Word := 0x9e3779b97f4a7c16

/-- `KEYW[alg]`, key words of an algorithm (R6). -/
def keyWords : Alg → Nat
  | .hwy => 4
  | .sip24 => 2
  | .sip13 => 2

/-- `BLOCK[alg]`, block size in bytes (R6). -/
def blockBytes : Alg → Nat
  | .hwy => 32
  | .sip24 => 8
  | .sip13 => 8

/-- `SIP_C` and `SIP_D` of `SIP24`: compression and finalisation rounds (R6). -/
def sip24Rounds : Nat × Nat := (2, 4)

/-- `SIP_C` and `SIP_D` of `SIP13` (R6). -/
def sip13Rounds : Nat × Nat := (1, 3)

/-- The number of message addresses, `2^AW` with `AW` = 64 (R6). -/
def addrSpace : Nat := 2 ^ 64

end Sys2Proof.Machine
end

