-- ==== Sys2Proof/Machine/Bits.lean ====
section
/-! DEFINITION. The rotations of 00_scope.md R8 and 42_highway_lane_pipeline.md R137, and the byte order of R9 and
20_memory.md R45. -/

namespace Sys2Proof.Machine

/-- `rotl64(a, n)` of R8, for `1 ≤ n ≤ 63`. -/
def rotl64 (a : Word) (n : Nat) : Word := (a <<< n) ||| (a >>> (64 - n))

/-- `rotl32(h, n)` of R8, for `0 ≤ n ≤ 31`; `rotl32(h, 0) = h`. -/
def rotl32 (h : Half) (n : Nat) : Half := if n = 0 then h else (h <<< n) ||| (h >>> (32 - n))

/-- `swap32(x)` of R131: the two 32-bit halves exchanged. -/
def swap32 (x : Word) : Word := rotl64 x 32

/-- `x[31:0]`. -/
def loHalf (x : Word) : Half := x.extractLsb' 0 32

/-- `x[63:32]`. -/
def hiHalf (x : Word) : Half := x.extractLsb' 32 32

/-- `Rot32(x, n)` of R137: each 32-bit half rotated left by `n` within itself. -/
def rot32 (x : Word) (n : Nat) : Word := rotl32 (hiHalf x) n ++ rotl32 (loHalf x) n

/-- Byte `j` of a word, byte 0 least significant. -/
def byteOf (x : Word) (j : Nat) : Byte := x.extractLsb' (8 * j) 8

/-- `le64(b)` of R9: byte 0 least significant. On eight bytes it is the spec's sum. -/
def le64 : List Byte → Word
  | [] => 0
  | b :: bs => b.setWidth 64 ||| (le64 bs <<< 8)

/-- The bytes `m[i..i+n)` of R9. -/
def slice (m : List Byte) (i n : Nat) : List Byte := (m.drop i).take n

end Sys2Proof.Machine
end

