-- ==== Sys2Proof/Machine/Hwy.lean ====
section
/-! DEFINITION. The HighwayHash lane pipeline, 42_highway_lane_pipeline.md R131 to R140: the reference instantiation
of `DIGEST_FN[HWY]`. PRESUMED by the spec itself from general knowledge (R130, log 4). -/

namespace Sys2Proof.Machine

/-- The sixteen HighwayHash lane registers `HV0`, `HV1`, `HM0`, `HM1` (10_state.md R28). -/
structure HwyLanes where
  v0 : Quad
  v1 : Quad
  m0 : Quad
  m1 : Quad
  deriving DecidableEq, Repr

/-- The initial multiplier bank `HM0` (R131). -/
def hwyInit0 : Quad := ⟨0xdbe6d5d5fe4cce2f, 0xa4093822299f31d0, 0x13198a2e03707344, 0x243f6a8885a308d3⟩

/-- The initial multiplier bank `HM1` (R131). -/
def hwyInit1 : Quad := ⟨0x3bd39e10cb0ef593, 0xc0acf169b5f18a8c, 0xbe5466cf34e90c6c, 0x452821e638d01377⟩

/-- Seed (R131): all sixteen lane registers from the four key words. -/
def hwySeed (k : Quad) : HwyLanes :=
  { v0 := ⟨hwyInit0.x0 ^^^ k.x0, hwyInit0.x1 ^^^ k.x1, hwyInit0.x2 ^^^ k.x2, hwyInit0.x3 ^^^ k.x3⟩
    v1 := ⟨hwyInit1.x0 ^^^ swap32 k.x0, hwyInit1.x1 ^^^ swap32 k.x1,
           hwyInit1.x2 ^^^ swap32 k.x2, hwyInit1.x3 ^^^ swap32 k.x3⟩
    m0 := hwyInit0
    m1 := hwyInit1 }

/-- `z_even` of `Zip(odd, even)` (R133), bytes listed from the least significant. -/
def zipEven (odd even : Word) : Word :=
  le64 [byteOf even 3, byteOf odd 4, byteOf even 2, byteOf even 5,
        byteOf odd 6, byteOf even 1, byteOf odd 7, byteOf even 0]

/-- `z_odd` of `Zip(odd, even)` (R133), bytes listed from the least significant. -/
def zipOdd (odd even : Word) : Word :=
  le64 [byteOf odd 3, byteOf even 4, byteOf odd 2, byteOf odd 5,
        byteOf odd 1, byteOf even 6, byteOf odd 0, byteOf even 7]

/-- The 32x32 to 64-bit product of R132: the low half of one word by the high half of another. -/
def mulHalves (lo hi : Word) : Word := (lo &&& 0xffffffff) * (hi >>> 32)

/-- The first loop of `Update` (R132) on one lane: `HV1`, then `HM0`, then `HV0`, then `HM1`, each step using the
registers just written. -/
def hwyLane (v0 v1 m0 m1 a : Word) : Word × Word × Word × Word :=
  let v1 := v1 + m0 + a
  let m0 := m0 ^^^ mulHalves v1 v0
  let v0 := v0 + m1
  let m1 := m1 ^^^ mulHalves v0 v1
  (v0, v1, m0, m1)

/-- Adds the zipper merge of one bank into another, pair by pair (R132's last four lines). -/
def zipAdd (dst src : Quad) : Quad :=
  ⟨dst.x0 + zipEven src.x1 src.x0, dst.x1 + zipOdd src.x1 src.x0,
   dst.x2 + zipEven src.x3 src.x2, dst.x3 + zipOdd src.x3 src.x2⟩

/-- `Update(a)` (R132). -/
def hwyUpdate (s : HwyLanes) (a : Quad) : HwyLanes :=
  let l0 := hwyLane s.v0.x0 s.v1.x0 s.m0.x0 s.m1.x0 a.x0
  let l1 := hwyLane s.v0.x1 s.v1.x1 s.m0.x1 s.m1.x1 a.x1
  let l2 := hwyLane s.v0.x2 s.v1.x2 s.m0.x2 s.m1.x2 a.x2
  let l3 := hwyLane s.v0.x3 s.v1.x3 s.m0.x3 s.m1.x3 a.x3
  let v0 := zipAdd ⟨l0.1, l1.1, l2.1, l3.1⟩ ⟨l0.2.1, l1.2.1, l2.2.1, l3.2.1⟩
  let v1 := zipAdd ⟨l0.2.1, l1.2.1, l2.2.1, l3.2.1⟩ v0
  { v0 := v0
    v1 := v1
    m0 := ⟨l0.2.2.1, l1.2.2.1, l2.2.2.1, l3.2.2.1⟩
    m1 := ⟨l0.2.2.2, l1.2.2.2, l2.2.2.2, l3.2.2.2⟩ }

/-- The lane words of a 32-byte packet, lane `i` from bytes `8*i .. 8*i+7` (R135). -/
def laneWords (p : List Byte) : Quad :=
  ⟨le64 (slice p 0 8), le64 (slice p 8 8), le64 (slice p 16 8), le64 (slice p 24 8)⟩

/-- Block phase (R135): the full 32-byte blocks, in order from the first. -/
def hwyBlocks (s : HwyLanes) (m : List Byte) : HwyLanes :=
  (List.range (m.length / 32)).foldl (fun u j => hwyUpdate u (laneWords (slice m (32 * j) 32))) s

/-- Which byte of the tail stands at position `p` of `PKT` (R136), for a tail of `n` bytes; none where `PKT` holds the
generated zero. -/
def packetSource (n p : Nat) : Option Nat :=
  let r4 := n % 4
  let q := n - r4
  if p < q then some p
  else if 16 ≤ n then
    if 28 ≤ p then some (n - 4 + (p - 28)) else none
  else if r4 = 0 then none
  else if p = 16 then some q
  else if p = 17 then some (q + r4 / 2)
  else if p = 18 then some (q + r4 - 1)
  else none

/-- The packet buffer `PKT[0..31]` for the tail bytes `t`, `1 ≤ len(t) ≤ 31` (R136). -/
def hwyPacket (t : List Byte) : List Byte :=
  (List.range 32).map fun p =>
    match packetSource t.length p with
    | some j => t.getD j 0
    | none => 0

/-- Applies a function to the four words of a bank. -/
def quadMap (f : Word → Word) (q : Quad) : Quad := ⟨f q.x0, f q.x1, f q.x2, f q.x3⟩

/-- Tail phase (R136) on the `n` remaining bytes: the byte count into `HV0`, `Rot32` of `HV1`, then `Update` with the
packet. -/
def hwyTail (s : HwyLanes) (t : List Byte) : HwyLanes :=
  let n := t.length
  let count : Word := (BitVec.ofNat 64 n <<< 32) + BitVec.ofNat 64 n
  hwyUpdate
    { s with v0 := quadMap (fun x => x + count) s.v0, v1 := quadMap (fun x => rot32 x n) s.v1 }
    (laneWords (hwyPacket t))

/-- The permuted lane words of one finalisation round (R138). -/
def hwyPermute (v0 : Quad) : Quad := ⟨swap32 v0.x2, swap32 v0.x3, swap32 v0.x0, swap32 v0.x1⟩

/-- The permute-and-update rounds of R138. -/
def hwyRounds : Nat → HwyLanes → HwyLanes
  | 0, s => s
  | n + 1, s => hwyRounds n (hwyUpdate s (hwyPermute s.v0))

/-- The lane registers at the end of the four phases (R82, R140): the tail runs only when a byte remains. -/
def hwyLanes (k : Quad) (m : List Byte) : HwyLanes :=
  let s := hwyBlocks (hwySeed k) m
  let s := if m.length % 32 = 0 then s else hwyTail s (m.drop (32 * (m.length / 32)))
  hwyRounds 4 s

/-- `Hwy(k, m)` (R140): the sum of lane 0 of the four banks (R138). -/
def hwy (k : Quad) (m : List Byte) : Word :=
  let s := hwyLanes k m
  s.v0.x0 + s.v1.x0 + s.m0.x0 + s.m1.x0

end Sys2Proof.Machine
end

