-- ==== Sys2Proof/Syntax.lean ====
section
/-! DEFINITION. The command set `HHMIX-C1`: one constructor of `Instr` for each row of spec/opcode_table.json
(30_encoding.md R67), with its operand words in packet order (R65); the header as fields (R61); the operations of R62;
the fault causes (60_exceptions.md R191). -/

namespace Sys2Proof

/-- The 20 commands. Every operand is one whole 64-bit word (R70). -/
inductive Instr where
  | newHwy
  | newSip24
  | newSip13
  | newkHwy (k0 k1 k2 k3 : Word)
  | newkSip24 (k0 k1 : Word)
  | newkSip13 (k0 k1 : Word)
  | write (addr len : Word)
  | finish
  | digestHwy (k0 k1 k2 k3 addr len : Word)
  | digestSip24 (k0 k1 addr len : Word)
  | digestSip13 (k0 k1 addr len : Word)
  | digestHwyScalar (k0 k1 k2 k3 addr len : Word)
  | digestSip24Scalar (k0 k1 addr len : Word)
  | digestSip13Scalar (k0 k1 addr len : Word)
  | digestHwySse41 (k0 k1 k2 k3 addr len : Word)
  | digestSip24Sse41 (k0 k1 addr len : Word)
  | digestSip13Sse41 (k0 k1 addr len : Word)
  | digestHwyAvx2 (k0 k1 k2 k3 addr len : Word)
  | digestSip24Avx2 (k0 k1 addr len : Word)
  | digestSip13Avx2 (k0 k1 addr len : Word)
  deriving DecidableEq, Repr

/-- What a legal header names: an operation of R62 with the algorithm of R63 and the backend of R64 where they have
a meaning. These are the 20 legal headers of R67. -/
inductive Op where
  | new (a : Alg)
  | newk (a : Alg)
  | write
  | finish
  | digest (a : Alg) (b : Backend)
  deriving DecidableEq, Repr

/-- The header word as fields (R61). -/
structure Header where
  opc : BitVec 8
  alg : BitVec 2
  bk : BitVec 2
  rsv : BitVec 52
  deriving DecidableEq, Repr

/-- The fault causes of R191 that a fault can record; code 0 (no fault) is the field `CAUSE` at 0. -/
inductive Cause where
  /-- `ILLEGAL_OPCODE`, code 1: `OPC` not in 1..5 (R192). -/
  | illegalOpcode
  /-- `RESERVED_FIELD`, code 2: a legal `OPC` with another field wrong (R193). -/
  | reservedField
  /-- `BACKEND_UNAVAILABLE`, code 3: the command names an absent engine (R194). -/
  | backendUnavailable
  /-- `MSG_RANGE`, code 4: the message range passes the top of the address space (R195). -/
  | msgRange
  /-- `MSG_ACCESS`, code 5: the message range holds an unreadable address (R197). -/
  | msgAccess
  deriving DecidableEq, Repr

/-- What the sequencer finds at the head of `CMDQ` (30_encoding.md R71). -/
inductive Decoded where
  /-- A whole command (or a header that alone decides a fault of execution). -/
  | command (i : Instr)
  /-- An illegal header, with the cause of R68. -/
  | illegal (c : Cause)
  /-- A legal header whose operand words are not all there. -/
  | incomplete
  /-- An empty queue. -/
  | empty
  deriving DecidableEq, Repr

end Sys2Proof
end

