-- ==== Sys2Proof/WellFormed.lean ====
section
/-! DEFINITION. Well-formedness: of a header given as fields (30_encoding.md R68, one check a step), of an
instruction (its header is; no operand value is ever ill-formed, R69, R70), and of the platform's parameters
(10_state.md R31, R32). -/

namespace Sys2Proof

namespace Header

/-- R68 step 1: `OPC` is one of the five operations of R62. -/
def opcOk (h : Header) : Bool := 1 ≤ h.opc.toNat && h.opc.toNat ≤ 5

/-- R68 step 2: the reserved field is zero. -/
def rsvOk (h : Header) : Bool := h.rsv == 0

/-- R68 step 3: where the operation takes an algorithm, it is not the reserved code 3. -/
def algOk (h : Header) : Bool := !((h.opc == 1 || h.opc == 2 || h.opc == 5) && h.alg == 3)

/-- R68 step 4: `WRITE` and `FINISH` carry no algorithm. -/
def algUnusedOk (h : Header) : Bool := !((h.opc == 3 || h.opc == 4) && h.alg != 0)

/-- R68 step 5: only `DIGEST` carries a backend. -/
def bkUnusedOk (h : Header) : Bool := !(h.opc != 5 && h.bk != 0)

/-- A header passes R68. -/
def wf (h : Header) : Bool := h.opcOk && h.rsvOk && h.algOk && h.algUnusedOk && h.bkUnusedOk

end Header

/-- The header fields of each command (the rows of R67). -/
def Instr.header : Instr → Header
  | .newHwy => ⟨1, 0, 0, 0⟩
  | .newSip24 => ⟨1, 1, 0, 0⟩
  | .newSip13 => ⟨1, 2, 0, 0⟩
  | .newkHwy _ _ _ _ => ⟨2, 0, 0, 0⟩
  | .newkSip24 _ _ => ⟨2, 1, 0, 0⟩
  | .newkSip13 _ _ => ⟨2, 2, 0, 0⟩
  | .write _ _ => ⟨3, 0, 0, 0⟩
  | .finish => ⟨4, 0, 0, 0⟩
  | .digestHwy _ _ _ _ _ _ => ⟨5, 0, 0, 0⟩
  | .digestSip24 _ _ _ _ => ⟨5, 1, 0, 0⟩
  | .digestSip13 _ _ _ _ => ⟨5, 2, 0, 0⟩
  | .digestHwyScalar _ _ _ _ _ _ => ⟨5, 0, 1, 0⟩
  | .digestSip24Scalar _ _ _ _ => ⟨5, 1, 1, 0⟩
  | .digestSip13Scalar _ _ _ _ => ⟨5, 2, 1, 0⟩
  | .digestHwySse41 _ _ _ _ _ _ => ⟨5, 0, 2, 0⟩
  | .digestSip24Sse41 _ _ _ _ => ⟨5, 1, 2, 0⟩
  | .digestSip13Sse41 _ _ _ _ => ⟨5, 2, 2, 0⟩
  | .digestHwyAvx2 _ _ _ _ _ _ => ⟨5, 0, 3, 0⟩
  | .digestSip24Avx2 _ _ _ _ => ⟨5, 1, 3, 0⟩
  | .digestSip13Avx2 _ _ _ _ => ⟨5, 2, 3, 0⟩

/-- An instruction is well-formed when its header passes R68; operands are unconstrained (R69). -/
def Instr.wf (i : Instr) : Bool := i.header.wf

/-- A queue depth is admissible when it is unbounded or at least `least`. -/
def depthOk (least : Nat) : Option Nat → Bool
  | none => true
  | some n => least ≤ n

/-- The bounds on the parameters: `CMDQ_DEPTH` at least 7 (R31), `OUTQ_DEPTH` at least 1 (R32), and no readable
location with read side effects (20_memory.md R47). -/
def Params.wf (p : Params) : Bool :=
  depthOk 7 p.cmdqDepth && depthOk 1 p.outqDepth && p.regions.all (fun r => r.kind == .unreadable)

end Sys2Proof
end

