-- ==== Sys2Proof/Decode.lean ====
section
/-! DEFINITION. The decoder of 30_encoding.md R71 (fields R61, checks R68, lengths R66, operands R65 and R70), a
total function of the words at the head of `CMDQ`; after it the encoder, written from the table of R67; and the
host's view of an opcode-table word. -/

namespace Sys2Proof

/-! ### The header's fields (R61) -/

/-- `OPC`, bits 7:0. -/
def hdrOpc (h : Word) : BitVec 8 := h.extractLsb' 0 8
/-- `ALG`, bits 9:8. -/
def hdrAlg (h : Word) : BitVec 2 := h.extractLsb' 8 2
/-- `BK`, bits 11:10. -/
def hdrBk (h : Word) : BitVec 2 := h.extractLsb' 10 2
/-- `RSV`, bits 63:12. -/
def hdrRsv (h : Word) : BitVec 52 := h.extractLsb' 12 52

/-- The four fields of a header word. -/
def headerFields (h : Word) : Header := ⟨hdrOpc h, hdrAlg h, hdrBk h, hdrRsv h⟩

/-- The word with these fields. -/
def headerWord (h : Header) : Word := h.rsv ++ h.bk ++ h.alg ++ h.opc

/-- `ALG` codes of R63; 3 is reserved. -/
def algOfCode (c : BitVec 2) : Option Alg :=
  if c = 0 then some .hwy else if c = 1 then some .sip24 else if c = 2 then some .sip13 else none

/-- `BK` codes of R64. -/
def backendOfCode (c : BitVec 2) : Backend :=
  if c = 0 then .dispatch else if c = 1 then .scalar else if c = 2 then .sse41 else .avx2

/-! ### Decoding a header (R68) -/

/-- R68 steps 2 to 5 after the operation is known: `mk` builds the operation from a legal algorithm. -/
def decodeAlg (h : Word) (mk : Alg → Op) : Except Cause Op :=
  match algOfCode (hdrAlg h) with
  | some a => .ok (mk a)
  | none => .error .reservedField

/-- `NEW` and `NEWK` carry no backend (R68 step 5), `WRITE` and `FINISH` neither backend nor algorithm (steps 4, 5). -/
def decodeHeader (h : Word) : Except Cause Op :=
  let opc := hdrOpc h
  if opc = 0 ∨ 5 < opc.toNat then .error .illegalOpcode
  else if hdrRsv h ≠ 0 then .error .reservedField
  else if opc = 1 then if hdrBk h = 0 then decodeAlg h .new else .error .reservedField
  else if opc = 2 then if hdrBk h = 0 then decodeAlg h .newk else .error .reservedField
  else if opc = 3 then if hdrAlg h = 0 ∧ hdrBk h = 0 then .ok .write else .error .reservedField
  else if opc = 4 then if hdrAlg h = 0 ∧ hdrBk h = 0 then .ok .finish else .error .reservedField
  else decodeAlg h (fun a => .digest a (backendOfCode (hdrBk h)))

/-! ### Lengths (R66) and operands (R65) -/

/-- The number of words of a command, header included (R66). -/
def opWords : Op → Nat
  | .new _ => 1
  | .newk .hwy => 5
  | .newk .sip24 => 3
  | .newk .sip13 => 3
  | .write => 3
  | .finish => 1
  | .digest .hwy _ => 7
  | .digest .sip24 _ => 5
  | .digest .sip13 _ => 5

/-- How many words the sequencer awaits before it executes: the whole command, or the header alone for a command
that names an absent engine (R71, 43_backend_dispatch.md R152). -/
def opAwaits : Op → Nat
  | .digest _ .sse41 => 1
  | .digest _ .avx2 => 1
  | o => opWords o

/-- The command with its operand words (R65). A missing word reads as zero: that can only be a word of a command
whose header alone decides its fault, and its meaning reads none (log 12). -/
def opInstr (o : Op) (ops : List Word) : Instr :=
  let w := fun n => ops.getD n 0
  match o with
  | .new .hwy => .newHwy
  | .new .sip24 => .newSip24
  | .new .sip13 => .newSip13
  | .newk .hwy => .newkHwy (w 0) (w 1) (w 2) (w 3)
  | .newk .sip24 => .newkSip24 (w 0) (w 1)
  | .newk .sip13 => .newkSip13 (w 0) (w 1)
  | .write => .write (w 0) (w 1)
  | .finish => .finish
  | .digest .hwy .dispatch => .digestHwy (w 0) (w 1) (w 2) (w 3) (w 4) (w 5)
  | .digest .sip24 .dispatch => .digestSip24 (w 0) (w 1) (w 2) (w 3)
  | .digest .sip13 .dispatch => .digestSip13 (w 0) (w 1) (w 2) (w 3)
  | .digest .hwy .scalar => .digestHwyScalar (w 0) (w 1) (w 2) (w 3) (w 4) (w 5)
  | .digest .sip24 .scalar => .digestSip24Scalar (w 0) (w 1) (w 2) (w 3)
  | .digest .sip13 .scalar => .digestSip13Scalar (w 0) (w 1) (w 2) (w 3)
  | .digest .hwy .sse41 => .digestHwySse41 (w 0) (w 1) (w 2) (w 3) (w 4) (w 5)
  | .digest .sip24 .sse41 => .digestSip24Sse41 (w 0) (w 1) (w 2) (w 3)
  | .digest .sip13 .sse41 => .digestSip13Sse41 (w 0) (w 1) (w 2) (w 3)
  | .digest .hwy .avx2 => .digestHwyAvx2 (w 0) (w 1) (w 2) (w 3) (w 4) (w 5)
  | .digest .sip24 .avx2 => .digestSip24Avx2 (w 0) (w 1) (w 2) (w 3)
  | .digest .sip13 .avx2 => .digestSip13Avx2 (w 0) (w 1) (w 2) (w 3)

/-- The decoder (R71): what stands at the head of `CMDQ`. -/
def decode (q : List Word) : Decoded :=
  match q with
  | [] => .empty
  | h :: ops =>
    match decodeHeader h with
    | .error c => .illegal c
    | .ok o => if ops.length + 1 < opAwaits o then .incomplete else .command (opInstr o ops)

/-! ### The encoder (the table of R67) -/

/-- The words of a command in push order: its header value of R67, then its operands (R65). -/
def encode : Instr → List Word
  | .newHwy => [0x0000000000000001]
  | .newSip24 => [0x0000000000000101]
  | .newSip13 => [0x0000000000000201]
  | .newkHwy k0 k1 k2 k3 => [0x0000000000000002, k0, k1, k2, k3]
  | .newkSip24 k0 k1 => [0x0000000000000102, k0, k1]
  | .newkSip13 k0 k1 => [0x0000000000000202, k0, k1]
  | .write addr len => [0x0000000000000003, addr, len]
  | .finish => [0x0000000000000004]
  | .digestHwy k0 k1 k2 k3 addr len => [0x0000000000000005, k0, k1, k2, k3, addr, len]
  | .digestSip24 k0 k1 addr len => [0x0000000000000105, k0, k1, addr, len]
  | .digestSip13 k0 k1 addr len => [0x0000000000000205, k0, k1, addr, len]
  | .digestHwyScalar k0 k1 k2 k3 addr len => [0x0000000000000405, k0, k1, k2, k3, addr, len]
  | .digestSip24Scalar k0 k1 addr len => [0x0000000000000505, k0, k1, addr, len]
  | .digestSip13Scalar k0 k1 addr len => [0x0000000000000605, k0, k1, addr, len]
  | .digestHwySse41 k0 k1 k2 k3 addr len => [0x0000000000000805, k0, k1, k2, k3, addr, len]
  | .digestSip24Sse41 k0 k1 addr len => [0x0000000000000905, k0, k1, addr, len]
  | .digestSip13Sse41 k0 k1 addr len => [0x0000000000000A05, k0, k1, addr, len]
  | .digestHwyAvx2 k0 k1 k2 k3 addr len => [0x0000000000000C05, k0, k1, k2, k3, addr, len]
  | .digestSip24Avx2 k0 k1 addr len => [0x0000000000000D05, k0, k1, addr, len]
  | .digestSip13Avx2 k0 k1 addr len => [0x0000000000000E05, k0, k1, addr, len]

/-- The number of words of an instruction (R66). -/
def instrWords (i : Instr) : Nat := (encode i).length

/-! ### The host's view of an opcode-table word -/

/-- The words of an instruction given as one number: word `k` is bits `64*k + 63` down to `64*k`, and every bit
from `nbits` up is zero, as far as the longest command (7 words, R60). -/
def tableWords (nbits w : Nat) : List Word :=
  (List.range 7).map fun k => BitVec.ofNat 64 ((w % 2 ^ nbits) >>> (64 * k))

/-- The instruction the decoder reads from those words, none where it refuses them. -/
def decodeTableWord (nbits w : Nat) : Option Instr :=
  match decode (tableWords nbits w) with
  | .command i => some i
  | _ => none

end Sys2Proof
end

