-- ==== Sys2Proof/Machine/State.lean ====
section
/-! DEFINITION. The state of one HHMIX instance (10_state.md R20), the reasons a step can stop, and the state after
reset (R34, 70_reset_and_hazards.md R221). -/

namespace Sys2Proof.Machine

/-- `ST`, the combiner's state bit (R23): 0 = open, 1 = finished. It gates nothing (44_streaming_combiner.md R171). -/
inductive CombinerState where
  | opened
  | finished
  deriving DecidableEq, Repr

/-- The lane registers (R28, R29) and the packet buffer. They are transient: between digests they hold unspecified
values and no rule reads them before the next seeding (R30). -/
structure Lanes where
  hv0 : Quad
  hv1 : Quad
  hm0 : Quad
  hm1 : Quad
  sv : Quad
  pkt : Vector Byte 32
  deriving DecidableEq, Repr

/-- The message memory `MSG` (20_memory.md R40): the listed bytes, addresses strictly rising, no entry equal to what
an unlisted address reads as. `Memory.wf` in Machine/Ops.lean is that form. -/
abbrev Memory := List Host.Cell

/-- The machine's state. -/
structure State where
  /-- `KEY[0..3]` (R21). -/
  key : Quad
  /-- `ACC` (R22). -/
  acc : Word
  /-- `ALG` (R23). -/
  alg : Alg
  /-- `ST` (R23). -/
  st : CombinerState
  /-- `ERR` (R25, R27). -/
  err : Bool
  /-- `CAUSE` (R25; 60_exceptions.md R191). -/
  cause : BitVec 4
  /-- `CIX` (R24). -/
  cix : Word
  /-- `FCIX` (R26). -/
  fcix : Word
  /-- The lane registers and `PKT` (R28 to R30). -/
  lanes : Lanes
  /-- `CMDQ`, head first (R31). -/
  cmdq : List Word
  /-- `OUT`, head first (R32). -/
  out : List Word
  /-- `CAPS` (R33). -/
  caps : Caps
  /-- `MSG`, owned by the host and read only by the block (20_memory.md R40, R41). -/
  msg : Memory
  /-- The `OPEN` parameters of 00_scope.md R6; no step changes them (log 3). -/
  params : Params
  /-- The MODEL's own field: the number of free draws made so far (log 5). -/
  freeIx : Nat
  deriving DecidableEq, Repr

/-- Why the machine stops. A command's own faults are no stop: fault entry is a next state (60_exceptions.md R196). -/
inductive Fault where
  /-- Raised by `step` alone, when `ERR` = 1: the sequencer has no step until reset (R200). Safe: the machine does
  nothing there either (log 2). -/
  | halted
  deriving DecidableEq, Repr

/-- Why the model gives no next state. -/
inductive Refusal where
  /-- Raised by an arm of `exec` whose instruction has no meaning yet. Safe. No arm answers it. -/
  | notModelled (mnemonic : String)
  /-- Raised by `WRITE` and `DIGEST.*` whose message lies over a location with read side effects: the spec gives that
  no meaning and says a model refuses it (20_memory.md R47, 93 U15). Safe (log 8). -/
  | messageSideEffect
  deriving DecidableEq, Repr

/-- The outcome of a step or of a command's meaning. -/
abbrev Outcome := Host.Outcome State Fault Refusal

/-- Lane registers and `PKT` at State.reset. The spec leaves them unspecified; zero is a DESIGN CHOICE (log 6). -/
abbrev Lanes.zero : Lanes :=
  ⟨Quad.zero, Quad.zero, Quad.zero, Quad.zero, Quad.zero, Vector.replicate 32 0⟩

/-- The machine right after reset (R34, R221). `msg` and `params` are not the block's: nothing listed and the
default parameters are the model's choice (log 3, log 7); `freeIx` is the model's own (log 17). -/
def State.reset : State :=
  { key := Quad.zero
    acc := 0
    alg := .hwy
    st := .opened
    err := false
    cause := 0
    cix := 0
    fcix := 0
    lanes := Lanes.zero
    cmdq := []
    out := []
    caps := .empty
    msg := []
    params := Params.default
    freeIx := 0 }

end Sys2Proof.Machine
end

