-- ==== Sys2Proof/Machine/Ops.lean ====
section
/-! DEFINITION. The named operations over memory, queues and registers that every meaning is made of: the message
memory (20_memory.md R40, R43), the two queues (10_state.md R31, R32), retiring a command (R24), the unspecified lane
registers (R30), fault entry (60_exceptions.md R196) and, beside it, the only way out of a fault, reset (R200,
70_reset_and_hazards.md R221). -/

namespace Sys2Proof.Machine

/-! ### Message memory -/

/-- What an address that no entry lists reads as. The spec says every address holds a byte (R40) and leaves the
content to the host; zero is a DESIGN CHOICE (log 7). -/
def Memory.absent : Byte := 0

/-- The canonical form from address `lo` on. -/
def Memory.wfFrom (lo : Nat) : Memory → Bool
  | [] => true
  | (a, b) :: m => lo ≤ a && a < addrSpace && b != Memory.absent && Memory.wfFrom (a + 1) m

/-- The canonical form: addresses strictly rising and below 2^64, no entry equal to what an unlisted address reads
as. Equal memories are then equal lists. -/
def Memory.wf (m : Memory) : Bool := Memory.wfFrom 0 m

/-- The byte at an address (`B(a)` of R43). -/
def Memory.read : Memory → Nat → Byte
  | [], _ => Memory.absent
  | (a, b) :: m, x => if a = x then b else Memory.read m x

/-- The memory with one byte changed, in canonical form. Only the host writes (R41, R216). -/
def Memory.write : Memory → Nat → Byte → Memory
  | [], x, v => if v = Memory.absent then [] else [(x, v)]
  | (a, b) :: m, x, v =>
    if x < a then if v = Memory.absent then (a, b) :: m else (x, v) :: (a, b) :: m
    else if x = a then if v = Memory.absent then m else (x, v) :: m
    else (a, b) :: Memory.write m x v

/-- The bytes at `addr, addr+1, ..., addr+n-1` (R43). -/
def Memory.bytes (m : Memory) (addr n : Nat) : List Byte :=
  (List.range n).map fun i => m.read (addr + i)

/-! ### The address map (R48) -/

/-- The region holds the address. -/
def regionHas (r : Region) (a : Nat) : Bool := r.base ≤ a && a < r.base + r.size

/-- `MsgReadable(a)` (R48). -/
def msgReadable (p : Params) (a : Nat) : Bool :=
  !(p.regions.any fun r => r.kind == .unreadable && regionHas r a)

/-- The region meets the addresses `addr, ..., addr+n-1`. -/
def regionMeets (r : Region) (addr n : Nat) : Bool :=
  r.base < addr + n && addr < r.base + r.size && 0 < r.size && 0 < n

/-- Some region of the kind meets the range. -/
def rangeMeets (p : Params) (kind : RegionKind) (addr n : Nat) : Bool :=
  p.regions.any fun r => r.kind == kind && regionMeets r addr n

/-! ### Queues -/

/-- `OUT` holds as many words as it can (R32). -/
def outFull (s : State) : Bool :=
  match s.params.outqDepth with
  | none => false
  | some n => n ≤ s.out.length

/-- `CMDQ` has no room for `n` more words (R31). -/
def cmdqLacksRoom (s : State) (n : Nat) : Bool :=
  match s.params.cmdqDepth with
  | none => false
  | some d => d < s.cmdq.length + n

/-- `push(OUT, v)` (R32): append at the tail. -/
def pushOut (v : Word) (s : State) : State := { s with out := s.out ++ [v] }

/-- Retiring a command of `n` words: its words leave `CMDQ` together and `CIX` advances by one (R24, R31,
30_encoding.md R71). -/
def retire (n : Nat) (s : State) : State := { s with cmdq := s.cmdq.drop n, cix := s.cix + 1 }

/-! ### Registers -/

/-- The lane registers and `PKT` of the `n`-th free draw: unspecified values (R30). -/
def freeLanes (n : Nat) : Lanes :=
  { hv0 := ⟨Config.freeLane n 0, Config.freeLane n 1, Config.freeLane n 2, Config.freeLane n 3⟩
    hv1 := ⟨Config.freeLane n 4, Config.freeLane n 5, Config.freeLane n 6, Config.freeLane n 7⟩
    hm0 := ⟨Config.freeLane n 8, Config.freeLane n 9, Config.freeLane n 10, Config.freeLane n 11⟩
    hm1 := ⟨Config.freeLane n 12, Config.freeLane n 13, Config.freeLane n 14, Config.freeLane n 15⟩
    sv := ⟨Config.freeLane n 16, Config.freeLane n 17, Config.freeLane n 18, Config.freeLane n 19⟩
    pkt := Vector.ofFn fun i => Config.freePkt n i.val }

/-- After a digest the lane registers and `PKT` hold unspecified values (R30, R84): a fresh free draw (log 5). -/
def clobberLanes (s : State) : State := { s with lanes := freeLanes s.freeIx, freeIx := s.freeIx + 1 }

/-- The effect `NEW` and `NEWK` share on the combiner: key, algorithm, a cleared accumulator, open
(44_streaming_combiner.md R163 to R168). -/
def loadCombiner (k : Quad) (a : Alg) (s : State) : State :=
  { s with key := k, alg := a, acc := 0, st := .opened }

/-! ### Faults and reset -/

/-- The code a cause records in `CAUSE` (60_exceptions.md R191). -/
def causeCode : Cause → BitVec 4
  | .illegalOpcode => 1
  | .reservedField => 2
  | .backendUnavailable => 3
  | .msgRange => 4
  | .msgAccess => 5

/-- `raise Fault(c)` (R196): `ERR`, `CAUSE` and `FCIX`, and nothing else. -/
def raiseFault (c : Cause) (s : State) : State :=
  { s with err := true, cause := causeCode c, fcix := s.cix }

/-- Reset (R221, R222), the one way out of a fault (R200): every register of 10_state.md R34 at its value, both queues
emptied, the lane registers and `PKT` unspecified (a free draw, log 5); the message memory and the parameters are not
the block's and stay (10_state.md R35, log 18). -/
def resetBlock (s : State) : State :=
  { State.reset with
    lanes := freeLanes s.freeIx
    caps := s.caps
    msg := s.msg
    params := s.params
    freeIx := s.freeIx + 1 }

end Sys2Proof.Machine
end

