-- ==== Sys2Proof/Machine/Operands.lean ====
section
/-! DEFINITION. The operand forms: the message operand `(ADDR, LEN)` (20_memory.md R42 to R50) and the key operand
(40_scalar_digest_engine.md R80, 44_streaming_combiner.md R169). There is no other. -/

namespace Sys2Proof.Machine

/-- What `MemRead` does. -/
inductive MsgRead where
  /-- The bytes of the range. -/
  | bytes (m : List Byte)
  /-- A fault, before any access (R49, R50). -/
  | raise (c : Cause)
  /-- The range holds a location with read side effects: refused (R47, log 8). -/
  | sideEffect
  deriving DecidableEq, Repr

/-- The range passes the top of the address space (R49). -/
def rangeWraps (addr len : Word) : Bool := addrSpace < addr.toNat + len.toNat

/-- `MemRead(ADDR, LEN)` (R43): nothing is checked or read for `LEN` = 0; then the range check R49, the access check
R50, the refusal of R47, and the bytes. -/
def memRead (addr len : Word) (s : State) : MsgRead :=
  if len = 0 then .bytes []
  else if rangeWraps addr len then .raise .msgRange
  else if rangeMeets s.params .unreadable addr.toNat len.toNat then .raise .msgAccess
  else if rangeMeets s.params .sideEffect addr.toNat len.toNat then .sideEffect
  else .bytes (s.msg.bytes addr.toNat len.toNat)

/-- The key words an algorithm takes from four registers (R169, R21): all four for `HWY`, the first two else. -/
def keyOf (a : Alg) (k : Quad) : List Word := [k.x0, k.x1, k.x2, k.x3].take (keyWords a)

end Sys2Proof.Machine
end

