-- ==== Sys2Proof/Machine/Sip.lean ====
section
/-! DEFINITION. The SipHash lane pipeline, 41_sip_lane_pipeline.md R111 to R116: the reference instantiation of
`DIGEST_FN[SIP24]` and `DIGEST_FN[SIP13]`. PRESUMED by the spec itself from general knowledge (R110, log 4). A `Quad`
is the lane registers `SV[0..3]`. -/

namespace Sys2Proof.Machine

/-- Seed (R111): all four lane registers from the two key words. -/
def sipSeed (k0 k1 : Word) : Quad :=
  ⟨k0 ^^^ 0x736f6d6570736575, k1 ^^^ 0x646f72616e646f6d, k0 ^^^ 0x6c7967656e657261, k1 ^^^ 0x7465646279746573⟩

/-- `SipRound` (R112), its fourteen steps in the spec's order. -/
def sipRound (v : Quad) : Quad :=
  let a := v.x0 + v.x1
  let b := rotl64 v.x1 13
  let b := b ^^^ a
  let a := rotl64 a 32
  let c := v.x2 + v.x3
  let d := rotl64 v.x3 16
  let d := d ^^^ c
  let a := a + d
  let d := rotl64 d 21
  let d := d ^^^ a
  let c := c + b
  let b := rotl64 b 17
  let b := b ^^^ c
  let c := rotl64 c 32
  ⟨a, b, c, d⟩

/-- `SipRound` repeated. -/
def sipRounds : Nat → Quad → Quad
  | 0, v => v
  | n + 1, v => sipRounds n (sipRound v)

/-- One absorption (R113, R114): the word enters `SV[3]` before the `c` rounds and `SV[0]` after them. -/
def sipAbsorb (c : Nat) (v : Quad) (w : Word) : Quad :=
  let u := sipRounds c { v with x3 := v.x3 ^^^ w }
  { u with x0 := u.x0 ^^^ w }

/-- Block phase (R113): the full 8-byte blocks, in order from the first. -/
def sipBlocks (c : Nat) (v : Quad) (m : List Byte) : Quad :=
  (List.range (m.length / 8)).foldl (fun u i => sipAbsorb c u (le64 (slice m (8 * i) 8))) v

/-- The tail word `b` (R114): the remaining bytes little-endian, the length modulo 256 in the top byte. -/
def sipTailWord (m : List Byte) : Word :=
  (BitVec.ofNat 64 (m.length % 256) <<< 56) ||| le64 (m.drop (8 * (m.length / 8)))

/-- Finalise (R115): the lane registers after the `d` finalisation rounds. -/
def sipFinal (d : Nat) (v : Quad) : Quad := sipRounds d { v with x2 := v.x2 ^^^ 0xff }

/-- The lane registers at the end of the four phases (R82, R116). -/
def sipLanes (c d : Nat) (k0 k1 : Word) (m : List Byte) : Quad :=
  sipFinal d (sipAbsorb c (sipBlocks c (sipSeed k0 k1) m) (sipTailWord m))

/-- `Sip(c, d, k, m)` (R116). -/
def sip (c d : Nat) (k0 k1 : Word) (m : List Byte) : Word :=
  let v := sipLanes c d k0 k1 m
  v.x0 ^^^ v.x1 ^^^ v.x2 ^^^ v.x3

end Sys2Proof.Machine
end

