-- ==== Sys2Proof/Machine/Digest.lean ====
section
/-! DEFINITION. The digest function (40_scalar_digest_engine.md R80), the dispatcher (43_backend_dispatch.md R150 to
R152), the combine step (44_streaming_combiner.md R162) and the common course of `WRITE` and `DIGEST.*`. -/

namespace Sys2Proof.Machine

/-- `DIGEST_FN[alg](k, m)` of the reference instantiation (R80, R116, R140). -/
def referenceDigest (a : Alg) (k : List Word) (m : List Byte) : Word :=
  match a with
  | .hwy => hwy ⟨k.getD 0 0, k.getD 1 0, k.getD 2 0, k.getD 3 0⟩ m
  | .sip24 => sip sip24Rounds.1 sip24Rounds.2 (k.getD 0 0) (k.getD 1 0) m
  | .sip13 => sip sip13Rounds.1 sip13Rounds.2 (k.getD 0 0) (k.getD 1 0) m

/-- `Digest(alg, k, m)` (R80) for the digest function the machine is built with. -/
def digest (e : Engine) (a : Alg) (k : List Word) (m : List Byte) : Word :=
  match e with
  | .reference => referenceDigest a k m
  | .uninterpreted id => Config.digestFn id a k m

/-- `Combine(acc, d)` (R162). -/
def combine (acc d : Word) : Word := acc ^^^ (d + combineK + (acc <<< 6) + (acc >>> 2))

/-- The capability set holds the accelerator (R150): never, it is the empty set. -/
def capsHas : Caps → Accel → Bool
  | .empty, _ => false

/-- What a backend code selects. -/
inductive Selected where
  /-- The scalar engine, the only one this block has. -/
  | scalar
  /-- A vectorised engine, which this block has not. -/
  | absent (a : Accel)
  deriving DecidableEq, Repr

/-- The engine a `BK` code selects (30_encoding.md R64, R150, R151): the dispatcher takes AVX2 before SSE4.1 before
scalar among the capabilities and falls back to scalar; the other codes name their engine. -/
def selectEngine (c : Caps) : Backend → Selected
  | .dispatch => if capsHas c .avx2 then .absent .avx2 else if capsHas c .sse41 then .absent .sse41 else .scalar
  | .scalar => .scalar
  | .sse41 => .absent .sse41
  | .avx2 => .absent .avx2

/-- What a command that digests does once its digest is known. -/
inductive Digested where
  /-- The digest of the message. -/
  | value (d : Word)
  /-- A fault, before any effect (R198: the backend is decided before the message). -/
  | raise (c : Cause)
  /-- The message is refused (20_memory.md R47). -/
  | sideEffect
  deriving DecidableEq, Repr

/-- The common course of R85 and R169: select the engine, read the message, digest it. -/
def digestMessage (a : Alg) (b : Backend) (k : List Word) (addr len : Word) (s : State) : Digested :=
  match selectEngine s.caps b with
  | .absent _ => .raise .backendUnavailable
  | .scalar =>
    match memRead addr len s with
    | .bytes m => .value (digest s.params.engine a k m)
    | .raise c => .raise c
    | .sideEffect => .sideEffect

/-- The template R85 of the `DIGEST` commands, `n` words long: fault checks first, then the hold on a full `OUT`
(R198), then push and retire; the lane registers and `PKT` are left unspecified. -/
def digestCommand (a : Alg) (b : Backend) (n : Nat) (k : List Word) (addr len : Word) (s : State) : Outcome :=
  match digestMessage a b k addr len s with
  | .raise c => .next (raiseFault c s)
  | .sideEffect => .refused .messageSideEffect
  | .value d => if outFull s then .next s else .next (retire n (pushOut d (clobberLanes s)))

end Sys2Proof.Machine
end

