-- ==== Sys2Proof/Machine/Combiner.lean ====
section
/-! DEFINITION. The combiner commands (44_streaming_combiner.md): `NEW`, `NEWK`, `WRITE`, `FINISH`, one definition
each. -/

namespace Sys2Proof.Machine

/-- `NEW.HWY` (R163). -/
def execNewHwy (s : State) : Outcome := .next (retire 1 (loadCombiner Quad.zero .hwy s))

/-- `NEW.SIP24` (R164). -/
def execNewSip24 (s : State) : Outcome := .next (retire 1 (loadCombiner Quad.zero .sip24 s))

/-- `NEW.SIP13` (R165). -/
def execNewSip13 (s : State) : Outcome := .next (retire 1 (loadCombiner Quad.zero .sip13 s))

/-- `NEWK.HWY K0, K1, K2, K3` (R166). -/
def execNewkHwy (k0 k1 k2 k3 : Word) (s : State) : Outcome :=
  .next (retire 5 (loadCombiner ⟨k0, k1, k2, k3⟩ .hwy s))

/-- `NEWK.SIP24 K0, K1` (R167): the upper key registers are cleared. -/
def execNewkSip24 (k0 k1 : Word) (s : State) : Outcome :=
  .next (retire 3 (loadCombiner ⟨k0, k1, 0, 0⟩ .sip24 s))

/-- `NEWK.SIP13 K0, K1` (R168): the upper key registers are cleared. -/
def execNewkSip13 (k0 k1 : Word) (s : State) : Outcome :=
  .next (retire 3 (loadCombiner ⟨k0, k1, 0, 0⟩ .sip13 s))

/-- `WRITE ADDR, LEN` (R169): the digest under the combiner's key is folded into `ACC`; open. The dispatcher selects
the engine (R161). -/
def execWrite (addr len : Word) (s : State) : Outcome :=
  match digestMessage s.alg .dispatch (keyOf s.alg s.key) addr len s with
  | .raise c => .next (raiseFault c s)
  | .sideEffect => .refused .messageSideEffect
  | .value d => .next (retire 3 (clobberLanes { s with acc := combine s.acc d, st := .opened }))

/-- `FINISH` (R170): pushes `ACC`, which stays; finished. Holds while `OUT` is full. -/
def execFinish (s : State) : Outcome :=
  if outFull s then .next s else .next (retire 1 (pushOut s.acc { s with st := .finished }))

end Sys2Proof.Machine
end

