-- ==== Sys2Proof/Machine/DigestCommands.lean ====
section
/-! DEFINITION. The twelve `DIGEST` commands, one definition each: the six that the scalar engine executes
(40_scalar_digest_engine.md R86 to R91) and the six that name an absent engine (43_backend_dispatch.md R153 to R158). -/

namespace Sys2Proof.Machine

/-- `DIGEST.HWY` (R86). -/
def execDigestHwy (k0 k1 k2 k3 addr len : Word) (s : State) : Outcome :=
  digestCommand .hwy .dispatch 7 [k0, k1, k2, k3] addr len s

/-- `DIGEST.SIP24` (R87). -/
def execDigestSip24 (k0 k1 addr len : Word) (s : State) : Outcome :=
  digestCommand .sip24 .dispatch 5 [k0, k1] addr len s

/-- `DIGEST.SIP13` (R88). -/
def execDigestSip13 (k0 k1 addr len : Word) (s : State) : Outcome :=
  digestCommand .sip13 .dispatch 5 [k0, k1] addr len s

/-- `DIGEST.HWY.SCALAR` (R89). -/
def execDigestHwyScalar (k0 k1 k2 k3 addr len : Word) (s : State) : Outcome :=
  digestCommand .hwy .scalar 7 [k0, k1, k2, k3] addr len s

/-- `DIGEST.SIP24.SCALAR` (R90). -/
def execDigestSip24Scalar (k0 k1 addr len : Word) (s : State) : Outcome :=
  digestCommand .sip24 .scalar 5 [k0, k1] addr len s

/-- `DIGEST.SIP13.SCALAR` (R91). -/
def execDigestSip13Scalar (k0 k1 addr len : Word) (s : State) : Outcome :=
  digestCommand .sip13 .scalar 5 [k0, k1] addr len s

/-- `DIGEST.HWY.SSE41` (R153): no operand is read (R152). -/
def execDigestHwySse41 (s : State) : Outcome := digestCommand .hwy .sse41 7 [] 0 0 s

/-- `DIGEST.SIP24.SSE41` (R154): no operand is read (R152). -/
def execDigestSip24Sse41 (s : State) : Outcome := digestCommand .sip24 .sse41 5 [] 0 0 s

/-- `DIGEST.SIP13.SSE41` (R155): no operand is read (R152). -/
def execDigestSip13Sse41 (s : State) : Outcome := digestCommand .sip13 .sse41 5 [] 0 0 s

/-- `DIGEST.HWY.AVX2` (R156): no operand is read (R152). -/
def execDigestHwyAvx2 (s : State) : Outcome := digestCommand .hwy .avx2 7 [] 0 0 s

/-- `DIGEST.SIP24.AVX2` (R157): no operand is read (R152). -/
def execDigestSip24Avx2 (s : State) : Outcome := digestCommand .sip24 .avx2 5 [] 0 0 s

/-- `DIGEST.SIP13.AVX2` (R158): no operand is read (R152). -/
def execDigestSip13Avx2 (s : State) : Outcome := digestCommand .sip13 .avx2 5 [] 0 0 s

end Sys2Proof.Machine
end

