-- ==== Sys2Proof/Machine/Dispatch.lean ====
section
/-! DEFINITION. One arm per command: the call of its meaning. -/

namespace Sys2Proof.Machine

def exec (i : Instr) (s : State) : Host.Outcome State Fault Refusal :=
  match i with
  | .newHwy => Sys2Proof.Machine.execNewHwy s
  | .newSip24 => Sys2Proof.Machine.execNewSip24 s
  | .newSip13 => Sys2Proof.Machine.execNewSip13 s
  | .newkHwy k0 k1 k2 k3 => Sys2Proof.Machine.execNewkHwy k0 k1 k2 k3 s
  | .newkSip24 k0 k1 => Sys2Proof.Machine.execNewkSip24 k0 k1 s
  | .newkSip13 k0 k1 => Sys2Proof.Machine.execNewkSip13 k0 k1 s
  | .write addr len => Sys2Proof.Machine.execWrite addr len s
  | .finish => Sys2Proof.Machine.execFinish s
  | .digestHwy k0 k1 k2 k3 addr len => Sys2Proof.Machine.execDigestHwy k0 k1 k2 k3 addr len s
  | .digestSip24 k0 k1 addr len => Sys2Proof.Machine.execDigestSip24 k0 k1 addr len s
  | .digestSip13 k0 k1 addr len => Sys2Proof.Machine.execDigestSip13 k0 k1 addr len s
  | .digestHwyScalar k0 k1 k2 k3 addr len => Sys2Proof.Machine.execDigestHwyScalar k0 k1 k2 k3 addr len s
  | .digestSip24Scalar k0 k1 addr len => Sys2Proof.Machine.execDigestSip24Scalar k0 k1 addr len s
  | .digestSip13Scalar k0 k1 addr len => Sys2Proof.Machine.execDigestSip13Scalar k0 k1 addr len s
  | .digestHwySse41 _ _ _ _ _ _ => Sys2Proof.Machine.execDigestHwySse41 s
  | .digestSip24Sse41 _ _ _ _ => Sys2Proof.Machine.execDigestSip24Sse41 s
  | .digestSip13Sse41 _ _ _ _ => Sys2Proof.Machine.execDigestSip13Sse41 s
  | .digestHwyAvx2 _ _ _ _ _ _ => Sys2Proof.Machine.execDigestHwyAvx2 s
  | .digestSip24Avx2 _ _ _ _ => Sys2Proof.Machine.execDigestSip24Avx2 s
  | .digestSip13Avx2 _ _ _ _ => Sys2Proof.Machine.execDigestSip13Avx2 s

end Sys2Proof.Machine
end

