-- ==== Sys2Proof/Machine/Sequencer.lean ====
section
/-! DEFINITION. The sequencer's course on what it finds at the head of `CMDQ` (30_encoding.md R71), and how the host
places one instruction there. Machine/Step.lean only calls it. -/

namespace Sys2Proof.Machine

/-- R71, R200, R235: halted while `ERR` = 1 (log 2); a hold changes nothing (log 1); an illegal header faults and
stays in `CMDQ` (R199); a command executes. -/
def sequencerStep (s : State) : Outcome :=
  if s.err then .fault .halted
  else
    match decode s.cmdq with
    | .empty => .next s
    | .incomplete => .next s
    | .illegal c => .next (raiseFault c s)
    | .command i => exec i s

/-- The words of the table's instruction that belong to the command itself: as many as its header says (R66), all
seven where the header is illegal. -/
def loadedWords (nbits w : Nat) : List Word :=
  match decodeTableWord nbits w with
  | some i => (tableWords nbits w).take (instrWords i)
  | none => tableWords nbits w

/-- The state with that command at the head of `CMDQ`, where the sequencer takes its next command, and no fault
recorded, since a halted block takes none (log 11, log 16). -/
def placeFetchWord (s : State) (nbits w : Nat) : State :=
  { s with cmdq := loadedWords nbits w ++ s.cmdq, err := false, cause := 0, fcix := 0 }

end Sys2Proof.Machine
end

