-- ==== Sys2Proof/Machine/Step.lean ====
section
/-! DEFINITION. One step of the machine: the sequencer's (00_scope.md R11, R13). -/

namespace Sys2Proof.Machine

/-- One step (30_encoding.md R71). -/
def step (s : State) : Host.Outcome State Fault Refusal := sequencerStep s

/-- The state with an opcode-table instruction where the next step takes it. -/
def State.withFetchWord (s : State) (nbits w : Nat) : State := placeFetchWord s nbits w

end Sys2Proof.Machine
end

