-- ==== Sys2Proof/Machine/Flags.lean ====
section
/-! DEFINITION. The status view and the host's register numbers (10_state.md R25, R36). The only flag is `ERR`
(R27): set by `raiseFault`, cleared by `resetBlock`, read by `step` before every command. No command computes any
other flag. -/

namespace Sys2Proof.Machine

/-- The code of `ALG` in a header and in `STATUS` (R23, 30_encoding.md R63). -/
def algCode : Alg → BitVec 2
  | .hwy => 0
  | .sip24 => 1
  | .sip13 => 2

/-- The bit of `ST` (R23). -/
def stBit : CombinerState → BitVec 1
  | .opened => 0
  | .finished => 1

/-- `STATUS` (R25): `ERR` bit 0, `CAUSE` bits 4:1, `ST` bit 5, `ALG` bits 7:6, the rest zero. -/
def State.status (s : State) : Word :=
  (0 : BitVec 56) ++ algCode s.alg ++ stBit s.st ++ s.cause ++ BitVec.ofBool s.err

/-- The status port (R36): register 0 is `STATUS`, 1 `CIX`, 2 `FCIX`, 3 reads as zero. -/
def statusPort (r : BitVec 2) (s : State) : Word :=
  if r = 0 then s.status else if r = 1 then s.cix else if r = 2 then s.fcix else 0

end Sys2Proof.Machine
end

