-- ==== Sys2Proof/Machine/HostPort.lean ====
section
/-! DEFINITION. What the host can do (60_exceptions.md R216), each move a function of the state that lands between
commands. A move that is not possible, or that would break a duty of R216, gives none. -/

namespace Sys2Proof.Machine

/-- Push one word (10_state.md R31): appended at the tail; no step while the queue is full. -/
def hostPush (w : Word) (s : State) : Option State :=
  if cmdqLacksRoom s 1 then none else some { s with cmdq := s.cmdq ++ [w] }

/-- The words of `CMDQ` as the whole commands they form, in order, and what is left: nothing, a command whose words are
not all there, or an illegal header with what follows it. The first argument bounds the number of commands looked at. -/
def splitQueue : Nat → List Word → List Instr × List Word
  | 0, q => ([], q)
  | n + 1, q =>
    match decode q with
    | .command i =>
      if instrWords i ≤ q.length then
        (i :: (splitQueue n (q.drop (instrWords i))).1, (splitQueue n (q.drop (instrWords i))).2)
      else ([], q)
    | _ => ([], q)

/-- The commands that are wholly pushed and not retired (20_memory.md R57). -/
def pendingCommands (s : State) : List Instr := (splitQueue s.cmdq.length s.cmdq).1

/-- The last command pushed has not all its words yet (10_state.md R33, 70_reset_and_hazards.md R235). -/
def midCommand (s : State) : Bool :=
  match decode (splitQueue s.cmdq.length s.cmdq).2 with
  | .command _ => true
  | .incomplete => true
  | .illegal _ => false
  | .empty => false

/-- Push the words of one whole command, contiguous and in order (R214, 93 U17, log 10): not behind a command that is
itself only partly pushed, whose operands its words would become. -/
def hostSubmit (i : Instr) (s : State) : Option State :=
  if midCommand s || cmdqLacksRoom s (instrWords i) then none else some { s with cmdq := s.cmdq ++ encode i }

/-- Pop one result (10_state.md R32): the head of `OUT`, when there is one. -/
def hostPop (s : State) : Option (Word × State) :=
  match s.out with
  | [] => none
  | v :: rest => some (v, { s with out := rest })

/-- Read a status register (10_state.md R36): the value at that moment, no side effect. -/
def hostRead (r : BitVec 2) (s : State) : Word := statusPort r s

/-- The message range `(ADDR, LEN)` that a command's words name (20_memory.md R42): every `WRITE` and every `DIGEST.*`,
those that name an absent engine and read no byte of it among them (R57, 92 D29). -/
def namedRange : Instr → Option (Word × Word)
  | .newHwy => none
  | .newSip24 => none
  | .newSip13 => none
  | .newkHwy _ _ _ _ => none
  | .newkSip24 _ _ => none
  | .newkSip13 _ _ => none
  | .write addr len => some (addr, len)
  | .finish => none
  | .digestHwy _ _ _ _ addr len => some (addr, len)
  | .digestSip24 _ _ addr len => some (addr, len)
  | .digestSip13 _ _ addr len => some (addr, len)
  | .digestHwyScalar _ _ _ _ addr len => some (addr, len)
  | .digestSip24Scalar _ _ addr len => some (addr, len)
  | .digestSip13Scalar _ _ addr len => some (addr, len)
  | .digestHwySse41 _ _ _ _ addr len => some (addr, len)
  | .digestSip24Sse41 _ _ addr len => some (addr, len)
  | .digestSip13Sse41 _ _ addr len => some (addr, len)
  | .digestHwyAvx2 _ _ _ _ addr len => some (addr, len)
  | .digestSip24Avx2 _ _ addr len => some (addr, len)
  | .digestSip13Avx2 _ _ addr len => some (addr, len)

/-- The address lies in a range. -/
def inRange (r : Word × Word) (a : Nat) : Bool := r.1.toNat ≤ a && a < r.1.toNat + r.2.toNat

/-- The address is in the range of a command that is wholly pushed and not retired (R57). -/
def addrPending (s : State) (a : Nat) : Bool :=
  (pendingCommands s).any fun i =>
    match namedRange i with
    | some r => inRange r a
    | none => false

/-- Write one byte of message memory (R216): none into the range of a pending command (the duty R57, log 9). -/
def hostWriteByte (a : Word) (b : Byte) (s : State) : Option State :=
  if addrPending s a.toNat then none else some { s with msg := s.msg.write a.toNat b }

/-- Assert reset (70_reset_and_hazards.md R220 to R222): always possible. -/
def hostReset (s : State) : State := resetBlock s

/-- The moves of R216 that change the state. Reading a status register changes none. -/
inductive HostMove where
  | push (w : Word)
  | submit (i : Instr)
  | pop
  | writeByte (a : Word) (b : Byte)
  | reset
  deriving DecidableEq, Repr

/-- The state after a host move, none where the move is not possible. -/
def hostStep (h : HostMove) (s : State) : Option State :=
  match h with
  | .push w => hostPush w s
  | .submit i => hostSubmit i s
  | .pop => (hostPop s).map (fun r => r.2)
  | .writeByte a b => hostWriteByte a b s
  | .reset => some (hostReset s)

end Sys2Proof.Machine
end

