-- ==== Sys2Proof/Safety.lean ====
section
/-! DEFINITION. What the statements speak of: the invariant of the machine, a legal message range, runs of commands,
and the end of a run (70_reset_and_hazards.md R236). -/

namespace Sys2Proof.Machine

/-- The fault record (10_state.md R25, R26; 60_exceptions.md R191, R196, R201): without a fault `CAUSE` and `FCIX`
hold 0; with one `CAUSE` is one of the five codes and `FCIX` is the index of the command the block halted at. -/
abbrev faultRecordOk (s : State) : Prop :=
  (s.err = false → s.cause = 0 ∧ s.fcix = 0) ∧
  (s.err = true → 1 ≤ s.cause.toNat ∧ s.cause.toNat ≤ 5 ∧ s.fcix = s.cix)

/-- Under a two-word key the upper key registers hold zero (10_state.md R21). -/
abbrev upperKeyClear (s : State) : Prop := s.alg ≠ .hwy → s.key.x2 = 0 ∧ s.key.x3 = 0

/-- A queue of `n` words fits its depth. -/
def fitsDepth (n : Nat) : Option Nat → Bool
  | none => true
  | some d => n ≤ d

/-- No queue holds more than its capacity (10_state.md R31, R32). -/
abbrev queuesFit (s : State) : Prop :=
  fitsDepth s.cmdq.length s.params.cmdqDepth = true ∧ fitsDepth s.out.length s.params.outqDepth = true

/-- The invariant: canonical message memory, a sound fault record, a clear upper key, queues within capacity. -/
abbrev State.Inv (s : State) : Prop :=
  Memory.wf s.msg = true ∧ faultRecordOk s ∧ upperKeyClear s ∧ queuesFit s

/-- A read at the address has side effects. -/
def msgSideEffect (p : Params) (a : Nat) : Bool :=
  p.regions.any fun r => r.kind == .sideEffect && regionHas r a

/-- The message operand is inside the documented domain (60_exceptions.md R190): empty, or a range that does not wrap
and lies in readable memory without read side effects. -/
def MessageLegal (p : Params) (addr len : Word) : Prop :=
  len = 0 ∨
  (addr.toNat + len.toNat ≤ 2 ^ 64 ∧
    ∀ a, addr.toNat ≤ a → a < addr.toNat + len.toNat → msgReadable p a = true ∧ msgSideEffect p a = false)

/-- The message operand that a command reads (20_memory.md R40, R42); a command that names an absent engine reads none
(43_backend_dispatch.md R152), and what its words name is `namedRange`. -/
def messageOperand : Instr → Option (Word × Word)
  | .write addr len => some (addr, len)
  | .digestHwy _ _ _ _ addr len => some (addr, len)
  | .digestSip24 _ _ addr len => some (addr, len)
  | .digestSip13 _ _ addr len => some (addr, len)
  | .digestHwyScalar _ _ _ _ addr len => some (addr, len)
  | .digestSip24Scalar _ _ addr len => some (addr, len)
  | .digestSip13Scalar _ _ addr len => some (addr, len)
  | _ => none

/-- The command names an absent engine (43_backend_dispatch.md R152). -/
def namesAbsentEngine : Instr → Bool
  | .digestHwySse41 _ _ _ _ _ _ => true
  | .digestSip24Sse41 _ _ _ _ => true
  | .digestSip13Sse41 _ _ _ _ => true
  | .digestHwyAvx2 _ _ _ _ _ _ => true
  | .digestSip24Avx2 _ _ _ _ => true
  | .digestSip13Avx2 _ _ _ _ => true
  | _ => false

/-- The command is a `DIGEST` that the scalar engine executes (40_scalar_digest_engine.md R85). -/
def isScalarDigest : Instr → Bool
  | .digestHwy _ _ _ _ _ _ => true
  | .digestSip24 _ _ _ _ => true
  | .digestSip13 _ _ _ _ => true
  | .digestHwyScalar _ _ _ _ _ _ => true
  | .digestSip24Scalar _ _ _ _ => true
  | .digestSip13Scalar _ _ _ _ => true
  | _ => false

/-- The command is a `FINISH`. -/
def isFinish : Instr → Bool
  | .finish => true
  | _ => false

/-- The command pushes a result when it retires (10_state.md R32). -/
def pushesResult (i : Instr) : Bool := isFinish i || isScalarDigest i

/-- The command is in the documented domain in a machine with these parameters (60_exceptions.md R190): it names no
absent engine and its message, if it has one, is legal. -/
def Documented (p : Params) (i : Instr) : Prop :=
  namesAbsentEngine i = false ∧ ∀ addr len, messageOperand i = some (addr, len) → MessageLegal p addr len

/-- There is room for one more result in `OUT` (10_state.md R32). -/
def OutHasRoom (s : State) : Prop := ∀ n, s.params.outqDepth = some n → s.out.length < n

/-- The state with a fault of that cause code recorded and nothing else changed (60_exceptions.md R196). -/
def withFault (code : BitVec 4) (s : State) : State := { s with err := true, cause := code, fcix := s.cix }

/-- An outcome with its next state, if it has one, changed by `f`; two outcomes that agree after the same `f` agree
but for what `f` overwrites. -/
def mapNext (f : State → State) : Outcome → Outcome
  | .next s => .next (f s)
  | .fault r => .fault r
  | .refused r => .refused r

/-- The messages that the `WRITE` commands of a list name, in order (44_streaming_combiner.md R172). -/
def writtenMessages (m : Memory) (is : List Instr) : List (List Byte) :=
  is.filterMap fun i =>
    match i with
    | .write addr len => some (m.bytes addr.toNat len.toNat)
    | _ => none

/-- The command is a `WRITE`. -/
def isWrite : Instr → Bool
  | .write _ _ => true
  | _ => false

/-- The command is a `NEW` or a `NEWK`. -/
def startsCombiner : Instr → Bool
  | .newHwy => true
  | .newSip24 => true
  | .newSip13 => true
  | .newkHwy _ _ _ _ => true
  | .newkSip24 _ _ => true
  | .newkSip13 _ _ => true
  | _ => false

/-- Commands executed one after another, stopping at the first that has no next state. -/
def execAll : List Instr → State → Outcome
  | [], s => .next s
  | i :: is, s =>
    match exec i s with
    | .next t => execAll is t
    | .fault f => .fault f
    | .refused r => .refused r

/-- The run has ended successfully (R236): nothing in `CMDQ`, no fault. -/
def endedWell (s : State) : Bool := s.cmdq.isEmpty && !s.err

/-- The run has ended in a fault (R236). -/
def endedInFault (s : State) : Bool := s.err

/-- The next state of an outcome, if it is one. -/
def nextOf : Outcome → Option State
  | .next s => some s
  | _ => none

end Sys2Proof.Machine
end

