-- ==== Sys2Proof/Certificates/Slice0/Obligations.lean ====
section
/-! DEFINITION. The statements for the provers. Each docstring names the rules of spec/ the statement formalises, and
says where a clause is the model's own choice. Where a statement speaks of the lane registers after a digest it leaves
them open (`∃ L n`): they are unspecified (10_state.md R30). -/

open Sys2Proof Sys2Proof.Machine

/-! ### Encoding -/

/-- Decoding the words of a command, whatever follows them in the queue, gives the command (30_encoding.md R65, R66,
R70, R71); so the words of a sequence of commands determine the sequence. -/
def Obligations.DecodeEncodeRoundTrip : Prop :=
  (∀ (i : Instr) (rest : List Word), i.wf = true ∧ decode (encode i ++ rest) = .command i) ∧
  (∀ is js : List Instr, is.flatMap encode = js.flatMap encode → is = js)

/-- Where the decoder answers a command whose words are all there, those words are the command's encoding: no bit of
the header and no operand bit is dropped (30_encoding.md R67, R68, R70). -/
def Obligations.DecodedWordsAreTheEncoding : Prop :=
  ∀ (q : List Word) (i : Instr), decode q = .command i → instrWords i ≤ q.length →
    q.take (instrWords i) = encode i

/-- R67: the 20 legal header values, what each names, and their lengths by format. -/
def Obligations.LegalHeadersAreTheTwenty : Prop :=
  (∀ (h : Word) (o : Op), decodeHeader h = .ok o ↔ (h, o, opWords o) ∈
    ([(0x001, .new .hwy, 1), (0x101, .new .sip24, 1), (0x201, .new .sip13, 1),
      (0x002, .newk .hwy, 5), (0x102, .newk .sip24, 3), (0x202, .newk .sip13, 3),
      (0x003, .write, 3), (0x004, .finish, 1),
      (0x005, .digest .hwy .dispatch, 7), (0x105, .digest .sip24 .dispatch, 5), (0x205, .digest .sip13 .dispatch, 5),
      (0x405, .digest .hwy .scalar, 7), (0x505, .digest .sip24 .scalar, 5), (0x605, .digest .sip13 .scalar, 5),
      (0x805, .digest .hwy .sse41, 7), (0x905, .digest .sip24 .sse41, 5), (0xA05, .digest .sip13 .sse41, 5),
      (0xC05, .digest .hwy .avx2, 7), (0xD05, .digest .sip24 .avx2, 5), (0xE05, .digest .sip13 .avx2, 5)] :
      List (Word × Op × Nat))) ∧
  (∀ i : Instr, ∃ h : Word, (encode i).head? = some h ∧ (encode i).length = instrWords i ∧
    h.toNat = i.header.opc.toNat + 256 * i.header.alg.toNat + 1024 * i.header.bk.toNat)

/-- The worked words of R74 decode to the commands they are listed with. -/
def Obligations.WorkedWordsDecode : Prop :=
  decode [0x1] = .command .newHwy ∧
  decode [0x102, 0x1, 0x2] = .command (.newkSip24 1 2) ∧
  decode [0x2, 0x1, 0x2, 0x3, 0x4] = .command (.newkHwy 1 2 3 4) ∧
  decode [0x3, 0x1000, 0x7] = .command (.write 0x1000 7) ∧
  decode [0x4] = .command .finish ∧
  decode [0x405, 0x1, 0x2, 0x3, 0x4, 0x1000, 0x7] = .command (.digestHwyScalar 1 2 3 4 0x1000 7) ∧
  decode [0x205, 0x1, 0x2, 0x1000, 0x7] = .command (.digestSip13 1 2 0x1000 7) ∧
  decode [0xE05, 0x1, 0x2, 0x1000, 0x7] = .command (.digestSip13Avx2 1 2 0x1000 7)

/-- R192 and R193, by the steps of 30_encoding.md R68: an illegal header at the head of `CMDQ` faults with
`ILLEGAL_OPCODE` when its `OPC` is none of the five, else with `RESERVED_FIELD`, and nothing else changes. -/
def Obligations.IllegalHeadersFault : Prop :=
  ∀ (s : State) (h : Word) (rest : List Word), s.err = false → s.cmdq = h :: rest →
    let opc := (h.extractLsb' 0 8).toNat
    let alg := (h.extractLsb' 8 2).toNat
    let bk := (h.extractLsb' 10 2).toNat
    let rsv := (h.extractLsb' 12 52).toNat
    (opc ∉ [1, 2, 3, 4, 5] → step s = .next (withFault 1 s)) ∧
    (opc ∈ [1, 2, 3, 4, 5] →
      rsv ≠ 0 ∨ (opc ∈ [1, 2, 5] ∧ alg = 3) ∨ (opc ∈ [3, 4] ∧ alg ≠ 0) ∨ (opc ∈ [1, 2, 3, 4] ∧ bk ≠ 0) →
      step s = .next (withFault 2 s))

/-! ### The sequencer -/

/-- Without a fault recorded, a step at a queue whose head decodes to a command is that command's meaning, and nothing
around it (30_encoding.md R71). -/
def Obligations.StepRunsDecodedInstruction : Prop :=
  ∀ (s : State) (i : Instr), s.err = false → decode s.cmdq = .command i → i.wf = true ∧ step s = exec i s

/-- The three holds of 70_reset_and_hazards.md R235. THE MODEL'S CHOICE (log 1): a hold, which in the spec is the
absence of a step, is a step that changes nothing. -/
def Obligations.HoldsChangeNothing : Prop :=
  (∀ s : State, s.err = false → s.cmdq = [] → step s = .next s) ∧
  (∀ (s : State) (i : Instr) (n : Nat), s.err = false → namesAbsentEngine i = false →
    0 < n → n < instrWords i → s.cmdq = (encode i).take n → step s = .next s) ∧
  (∀ (s : State) (i : Instr), Documented s.params i → pushesResult i = true → ¬ OutHasRoom s → exec i s = .next s)

/-- While `ERR` = 1 the sequencer has no step (60_exceptions.md R200). THE MODEL'S CHOICE (log 2): the outcome of
`step` is then the stop named `halted`. -/
def Obligations.HaltedBlockHasNoStep : Prop :=
  ∀ s : State, s.err = true → step s = .fault .halted

/-- Every step of a block without a fault is a hold in one of the three situations of 70_reset_and_hazards.md R235, a
fault entry, or the retirement of the command at the head of `CMDQ`: then exactly its words leave the queue, `CIX`
advances by one, and `OUT` gains one word if the command pushes and none if it does not (10_state.md R24, R31, R32).
THE MODEL'S CHOICE (log 1): a hold is a step to the same state. -/
def Obligations.EveryStepHoldsFaultsOrRetires : Prop :=
  ∀ s t : State, s.err = false → step s = .next t →
    (t = s ∧ (s.cmdq = [] ∨ decode s.cmdq = .incomplete ∨
      ∃ i : Instr, decode s.cmdq = .command i ∧ pushesResult i = true ∧ ¬ OutHasRoom s)) ∨
    (∃ code : BitVec 4, t = withFault code s) ∨
    (∃ i : Instr, decode s.cmdq = .command i ∧ t.err = false ∧ t.cix = s.cix + 1 ∧
      t.cmdq = s.cmdq.drop (instrWords i) ∧
      (pushesResult i = true → ∃ v, t.out = s.out ++ [v]) ∧ (pushesResult i = false → t.out = s.out))

/-! ### The combiner commands -/

/-- `NEW.*` (44_streaming_combiner.md R163, R164, R165): the header, and the exact next state from every state. -/
def Obligations.NewClearsCombiner : Prop :=
  encode .newHwy = [0x001] ∧ encode .newSip24 = [0x101] ∧ encode .newSip13 = [0x201] ∧
  ∀ s : State,
    exec .newHwy s = .next { s with
      key := ⟨0, 0, 0, 0⟩, alg := .hwy, acc := 0, st := .opened, cix := s.cix + 1, cmdq := s.cmdq.drop 1 } ∧
    exec .newSip24 s = .next { s with
      key := ⟨0, 0, 0, 0⟩, alg := .sip24, acc := 0, st := .opened, cix := s.cix + 1, cmdq := s.cmdq.drop 1 } ∧
    exec .newSip13 s = .next { s with
      key := ⟨0, 0, 0, 0⟩, alg := .sip13, acc := 0, st := .opened, cix := s.cix + 1, cmdq := s.cmdq.drop 1 }

/-- `NEWK.*` (44_streaming_combiner.md R166, R167, R168): the words, and the exact next state from every state. -/
def Obligations.NewkLoadsKey : Prop :=
  ∀ (s : State) (k0 k1 k2 k3 : Word),
    encode (.newkHwy k0 k1 k2 k3) = [0x002, k0, k1, k2, k3] ∧ encode (.newkSip24 k0 k1) = [0x102, k0, k1] ∧
    encode (.newkSip13 k0 k1) = [0x202, k0, k1] ∧
    exec (.newkHwy k0 k1 k2 k3) s = .next { s with
      key := ⟨k0, k1, k2, k3⟩, alg := .hwy, acc := 0, st := .opened, cix := s.cix + 1, cmdq := s.cmdq.drop 5 } ∧
    exec (.newkSip24 k0 k1) s = .next { s with
      key := ⟨k0, k1, 0, 0⟩, alg := .sip24, acc := 0, st := .opened, cix := s.cix + 1, cmdq := s.cmdq.drop 3 } ∧
    exec (.newkSip13 k0 k1) s = .next { s with
      key := ⟨k0, k1, 0, 0⟩, alg := .sip13, acc := 0, st := .opened, cix := s.cix + 1, cmdq := s.cmdq.drop 3 }

/-- `WRITE` (44_streaming_combiner.md R169): the words; on a legal message the exact next state but for the lane
registers, which the rule leaves unspecified; on another the fault, with no other effect. -/
def Obligations.WriteFoldsDigest : Prop :=
  ∀ (s : State) (addr len : Word),
    encode (.write addr len) = [0x003, addr, len] ∧
    (MessageLegal s.params addr len →
      ∃ (L : Lanes) (n : Nat),
        let k := if s.alg = .hwy then [s.key.x0, s.key.x1, s.key.x2, s.key.x3] else [s.key.x0, s.key.x1]
        let d := digest s.params.engine s.alg k (s.msg.bytes addr.toNat len.toNat)
        exec (.write addr len) s = .next { s with
          acc := s.acc ^^^ (d + 0x9e3779b97f4a7c16 + (s.acc <<< 6) + (s.acc >>> 2))
          st := .opened
          cix := s.cix + 1
          cmdq := s.cmdq.drop 3
          lanes := L
          freeIx := n }) ∧
    (len ≠ 0 → 2 ^ 64 < addr.toNat + len.toNat → exec (.write addr len) s = .next (withFault 4 s)) ∧
    (len ≠ 0 → addr.toNat + len.toNat ≤ 2 ^ 64 →
      (∃ a, addr.toNat ≤ a ∧ a < addr.toNat + len.toNat ∧ msgReadable s.params a = false) →
      exec (.write addr len) s = .next (withFault 5 s))

/-- `FINISH` (44_streaming_combiner.md R170) with room in `OUT`: the exact next state. -/
def Obligations.FinishPushesAccumulator : Prop :=
  ∀ s : State, OutHasRoom s →
    exec .finish s = .next { s with
      out := s.out ++ [s.acc], st := .finished, cix := s.cix + 1, cmdq := s.cmdq.drop 1 }

/-- R162: the combine step is the source's formula. -/
def Obligations.CombineIsTheFormula : Prop :=
  ∀ acc d : Word, combine acc d = acc ^^^ (d + 0x9e3779b97f4a7c16 + (acc <<< 6) + (acc >>> 2))

/-- R173 (a), (b), (d), (e): one to one and onto in the digest, a shifted digest from an empty accumulator, a fixed
point, and order sensitivity. -/
def Obligations.CombineLaws : Prop :=
  (∀ acc : Word, Function.Bijective (combine acc)) ∧
  (∀ d : Word, combine 0 d = d + 0x9e3779b97f4a7c16) ∧
  combine 4 0x61c8864680b582e9 = 4 ∧
  (∃ a d1 d2 : Word, combine (combine a d1) d2 ≠ combine (combine a d2) d1)

/-- R172: through any sequence of `WRITE`, `FINISH` and executing `DIGEST` commands that ends without a fault, the
accumulator is the fold of `Combine` over the digests of the written messages, from the accumulator at the start, and
the key and algorithm stay. `OUT` is unbounded here so that no command holds. -/
def Obligations.WritesFoldIntoAccumulator : Prop :=
  ∀ (is : List Instr) (s t : State),
    (∀ i ∈ is, (isWrite i || isFinish i || isScalarDigest i) = true) →
    s.params.outqDepth = none → s.err = false → execAll is s = .next t → t.err = false →
    let k := if s.alg = .hwy then [s.key.x0, s.key.x1, s.key.x2, s.key.x3] else [s.key.x0, s.key.x1]
    t.acc = ((writtenMessages s.msg is).map (fun m => digest s.params.engine s.alg k m)).foldl combine s.acc ∧
    t.key = s.key ∧ t.alg = s.alg ∧ t.cix = s.cix + BitVec.ofNat 64 is.length

/-- R174: two `FINISH` commands with only executing `DIGEST` commands between them push the same word. -/
def Obligations.FinishIsIdempotent : Prop :=
  ∀ (ds : List Instr) (s s1 s2 s3 : State),
    (∀ i ∈ ds, isScalarDigest i = true) → OutHasRoom s → OutHasRoom s2 →
    exec .finish s = .next s1 → execAll ds s1 = .next s2 → exec .finish s2 = .next s3 →
    ∃ v : Word, s1.out = s.out ++ [v] ∧ s3.out = s2.out ++ [v] ∧ s3.acc = s.acc

/-- R171: `ST` gates nothing. Changing it before a command changes at most `ST` afterwards; and what each command that
retires leaves in it. -/
def Obligations.StGatesNothing : Prop :=
  (∀ (i : Instr) (s : State) (b c : CombinerState),
    mapNext (fun t => { t with st := .opened }) (exec i { s with st := b }) =
      mapNext (fun t => { t with st := .opened }) (exec i { s with st := c })) ∧
  (∀ (i : Instr) (s t : State), s.err = false → exec i s = .next t → t.cix = s.cix + 1 →
    (isWrite i = true → t.st = .opened) ∧ (startsCombiner i = true → t.st = .opened) ∧
    (isFinish i = true → t.st = .finished) ∧ (isScalarDigest i = true → t.st = s.st))

/-! ### The DIGEST commands -/

/-- `DIGEST.HWY`, `DIGEST.SIP24`, `DIGEST.SIP13` (40_scalar_digest_engine.md R86, R87, R88) on a legal message with
room in `OUT`: the exact next state but for the lane registers. -/
def Obligations.DispatchedDigestPushes : Prop :=
  ∀ (s : State) (k0 k1 k2 k3 addr len : Word), MessageLegal s.params addr len → OutHasRoom s →
    ∃ (L : Lanes) (n : Nat),
      let m := s.msg.bytes addr.toNat len.toNat
      exec (.digestHwy k0 k1 k2 k3 addr len) s = .next { s with
        out := s.out ++ [digest s.params.engine .hwy [k0, k1, k2, k3] m]
        cix := s.cix + 1, cmdq := s.cmdq.drop 7, lanes := L, freeIx := n } ∧
      exec (.digestSip24 k0 k1 addr len) s = .next { s with
        out := s.out ++ [digest s.params.engine .sip24 [k0, k1] m]
        cix := s.cix + 1, cmdq := s.cmdq.drop 5, lanes := L, freeIx := n } ∧
      exec (.digestSip13 k0 k1 addr len) s = .next { s with
        out := s.out ++ [digest s.params.engine .sip13 [k0, k1] m]
        cix := s.cix + 1, cmdq := s.cmdq.drop 5, lanes := L, freeIx := n }

/-- The three `.SCALAR` forms (40_scalar_digest_engine.md R89, R90, R91) on a legal message with room in `OUT`: the
exact next state but for the lane registers. -/
def Obligations.ScalarDigestPushes : Prop :=
  ∀ (s : State) (k0 k1 k2 k3 addr len : Word), MessageLegal s.params addr len → OutHasRoom s →
    ∃ (L : Lanes) (n : Nat),
      let m := s.msg.bytes addr.toNat len.toNat
      exec (.digestHwyScalar k0 k1 k2 k3 addr len) s = .next { s with
        out := s.out ++ [digest s.params.engine .hwy [k0, k1, k2, k3] m]
        cix := s.cix + 1, cmdq := s.cmdq.drop 7, lanes := L, freeIx := n } ∧
      exec (.digestSip24Scalar k0 k1 addr len) s = .next { s with
        out := s.out ++ [digest s.params.engine .sip24 [k0, k1] m]
        cix := s.cix + 1, cmdq := s.cmdq.drop 5, lanes := L, freeIx := n } ∧
      exec (.digestSip13Scalar k0 k1 addr len) s = .next { s with
        out := s.out ++ [digest s.params.engine .sip13 [k0, k1] m]
        cix := s.cix + 1, cmdq := s.cmdq.drop 5, lanes := L, freeIx := n }

/-- The six commands that name an absent engine (43_backend_dispatch.md R152 to R158): from every state they take
`BACKEND_UNAVAILABLE`, whatever the operands; and one of the six headers at the head of `CMDQ` does so whatever
follows it. -/
def Obligations.AbsentEngineCommandsFault : Prop :=
  (∀ (s : State) (i : Instr), namesAbsentEngine i = true → exec i s = .next (withFault 3 s)) ∧
  (∀ (s : State) (h : Word) (rest : List Word), s.err = false → s.cmdq = h :: rest →
    h ∈ ([0x805, 0x905, 0xA05, 0xC05, 0xD05, 0xE05] : List Word) → step s = .next (withFault 3 s))

/-- R151: `DISPATCH` and `SCALAR` are the same engine: the same outcome for the same operands, from every state. -/
def Obligations.DispatchAgreesWithScalar : Prop :=
  ∀ (s : State) (k0 k1 k2 k3 addr len : Word),
    exec (.digestHwy k0 k1 k2 k3 addr len) s = exec (.digestHwyScalar k0 k1 k2 k3 addr len) s ∧
    exec (.digestSip24 k0 k1 addr len) s = exec (.digestSip24Scalar k0 k1 addr len) s ∧
    exec (.digestSip13 k0 k1 addr len) s = exec (.digestSip13Scalar k0 k1 addr len) s

/-- A single-shot digest neither reads nor writes the combiner (40_scalar_digest_engine.md R85): with another key,
accumulator, algorithm and state bit it does the same and leaves those as they are. -/
def Obligations.DigestIgnoresCombiner : Prop :=
  ∀ (i : Instr) (s : State) (k : Quad) (a : Word) (g : Alg) (b : CombinerState), isScalarDigest i = true →
    exec i { s with key := k, acc := a, alg := g, st := b } =
      mapNext (fun t => { t with key := k, acc := a, alg := g, st := b }) (exec i s)

/-! ### Messages and faults -/

/-- R43 with R49 and R50: what `MemRead` does with a range, where no location of it has read side effects. -/
def Obligations.MemReadChecksThenReads : Prop :=
  ∀ (s : State) (addr len : Word),
    (len = 0 → memRead addr len s = .bytes []) ∧
    (len ≠ 0 → 2 ^ 64 < addr.toNat + len.toNat → memRead addr len s = .raise .msgRange) ∧
    (len ≠ 0 → addr.toNat + len.toNat ≤ 2 ^ 64 →
      (∃ a, addr.toNat ≤ a ∧ a < addr.toNat + len.toNat ∧ msgReadable s.params a = false) →
      memRead addr len s = .raise .msgAccess) ∧
    (len ≠ 0 → MessageLegal s.params addr len →
      ∃ m, memRead addr len s = .bytes m ∧ m.length = len.toNat ∧
        ∀ j, j < len.toNat → m[j]? = some (s.msg.read (addr.toNat + j)))

/-- R49 and R195: a message range that passes the top of the address space faults `MSG_RANGE` with no other effect,
whatever the state of `OUT`. -/
def Obligations.WrappingRangeFaults : Prop :=
  ∀ (i : Instr) (s : State) (addr len : Word), messageOperand i = some (addr, len) →
    len ≠ 0 → 2 ^ 64 < addr.toNat + len.toNat → exec i s = .next (withFault 4 s)

/-- R50 and R197: a range that does not wrap and holds an unreadable address faults `MSG_ACCESS` with no other effect,
whatever the state of `OUT`. -/
def Obligations.UnreadableRangeFaults : Prop :=
  ∀ (i : Instr) (s : State) (addr len : Word), messageOperand i = some (addr, len) →
    len ≠ 0 → addr.toNat + len.toNat ≤ 2 ^ 64 →
    (∃ a, addr.toNat ≤ a ∧ a < addr.toNat + len.toNat ∧ msgReadable s.params a = false) →
    exec i s = .next (withFault 5 s)

/-- 20_memory.md R47 with 93 U15 (log 8): a message over a location with read side effects, all of it readable, is
refused by name. -/
def Obligations.SideEffectMessageRefused : Prop :=
  ∀ (i : Instr) (s : State) (addr len : Word), messageOperand i = some (addr, len) →
    len ≠ 0 → addr.toNat + len.toNat ≤ 2 ^ 64 →
    (∀ a, addr.toNat ≤ a → a < addr.toNat + len.toNat → msgReadable s.params a = true) →
    (∃ a, addr.toNat ≤ a ∧ a < addr.toNat + len.toNat ∧ msgSideEffect s.params a = true) →
    exec i s = .refused .messageSideEffect

/-- 60_exceptions.md R190: inside the documented domain no command faults. THE MODEL'S CHOICE (log 1): `FINISH` and
`DIGEST` at a full `OUT`, which in the spec hold and have no step (70_reset_and_hazards.md R235), answer a next state
here too, the state as it was. -/
def Obligations.DocumentedCommandsNeverFault : Prop :=
  ∀ (i : Instr) (s : State), Documented s.params i →
    ∃ t, exec i s = .next t ∧ t.err = s.err ∧ t.cause = s.cause ∧ t.fcix = s.fcix

/-- R196: a step that records a fault records `ERR`, a cause code of R191 and `FCIX` = `CIX`, and changes nothing
else. -/
def Obligations.FaultEntryIsPrecise : Prop :=
  ∀ s t : State, s.err = false → step s = .next t → t.err = true →
    t = { s with err := true, cause := t.cause, fcix := s.cix } ∧ 1 ≤ t.cause.toNat ∧ t.cause.toNat ≤ 5

/-- R41: no step changes message memory, as data and as read byte by byte. -/
def Obligations.MessageMemoryNeverWritten : Prop :=
  ∀ s t : State, step s = .next t →
    t.msg = s.msg ∧ ∀ a, t.msg.read a = s.msg.read a

/-- R44: a command's outcome depends on no byte outside its message range. -/
def Obligations.NoReadOutsideRange : Prop :=
  ∀ (i : Instr) (s : State) (m : Memory),
    (∀ addr len, messageOperand i = some (addr, len) →
      ∀ a, addr.toNat ≤ a → a < addr.toNat + len.toNat → m.read a = s.msg.read a) →
    exec i { s with msg := m } = mapNext (fun t => { t with msg := m }) (exec i s)

/-- R46: the result depends on the bytes and not on where they lie. -/
def Obligations.AddressDoesNotMatter : Prop :=
  ∀ (s : State) (a b len k0 k1 k2 k3 : Word), MessageLegal s.params a len → MessageLegal s.params b len →
    (∀ j, j < len.toNat → s.msg.read (a.toNat + j) = s.msg.read (b.toNat + j)) →
    exec (.write a len) s = exec (.write b len) s ∧
    exec (.digestHwy k0 k1 k2 k3 a len) s = exec (.digestHwy k0 k1 k2 k3 b len) s ∧
    exec (.digestSip24 k0 k1 a len) s = exec (.digestSip24 k0 k1 b len) s ∧
    exec (.digestSip13 k0 k1 a len) s = exec (.digestSip13 k0 k1 b len) s ∧
    exec (.digestHwyScalar k0 k1 k2 k3 a len) s = exec (.digestHwyScalar k0 k1 k2 k3 b len) s ∧
    exec (.digestSip24Scalar k0 k1 a len) s = exec (.digestSip24Scalar k0 k1 b len) s ∧
    exec (.digestSip13Scalar k0 k1 a len) s = exec (.digestSip13Scalar k0 k1 b len) s

/-! ### Who writes which register -/

/-- The column "written by" of 10_state.md R20 for the registers a command can write, over all commands and states;
and no command changes the parameters (10_state.md R35, log 3). -/
def Obligations.RegistersChangeOnlyByTheirCommands : Prop :=
  ∀ (i : Instr) (s t : State), exec i s = .next t →
    (startsCombiner i = false → t.key = s.key ∧ t.alg = s.alg) ∧
    (startsCombiner i = false → isWrite i = false → t.acc = s.acc) ∧
    (startsCombiner i = false → isWrite i = false → isFinish i = false → t.st = s.st) ∧
    (pushesResult i = false → t.out = s.out) ∧
    (isWrite i = false → isScalarDigest i = false → t.lanes = s.lanes) ∧
    t.caps = .empty ∧ t.params = s.params

/-- 10_state.md R21: the key registers reach nothing but through the digest of a `WRITE`: every other command does the
same with any key, up to the key itself. -/
def Obligations.KeyReachesOnlyWrite : Prop :=
  ∀ (i : Instr) (s : State) (k : Quad), isWrite i = false →
    mapNext (fun t => { t with key := ⟨0, 0, 0, 0⟩ }) (exec i { s with key := k }) =
      mapNext (fun t => { t with key := ⟨0, 0, 0, 0⟩ }) (exec i s)

/-- 10_state.md R30 (a), (c): no step reads a lane register or `PKT`: with others in their place it does the same, up to
the lane registers themselves. -/
def Obligations.LaneRegistersNeverRead : Prop :=
  ∀ (s : State) (K L : Lanes),
    mapNext (fun t => { t with lanes := K }) (step { s with lanes := L }) =
      mapNext (fun t => { t with lanes := K }) (step s)

/-! ### The lane pipelines (the reference instantiation) -/

/-- R133: the byte-permutation form of `Zip` and its form with masks and shifts are the same function. -/
def Obligations.ZipByteAndMaskFormsAgree : Prop :=
  ∀ v1 v0 : Word,
    zipEven v1 v0 =
      (((v0 &&& 0x00000000ff000000) ||| (v1 &&& 0x000000ff00000000)) >>> 24) |||
      (((v0 &&& 0x0000ff0000000000) ||| (v1 &&& 0x00ff000000000000)) >>> 16) |||
      (v0 &&& 0x0000000000ff0000) ||| ((v0 &&& 0x000000000000ff00) <<< 32) |||
      ((v1 &&& 0xff00000000000000) >>> 8) ||| (v0 <<< 56) ∧
    zipOdd v1 v0 =
      (((v1 &&& 0x00000000ff000000) ||| (v0 &&& 0x000000ff00000000)) >>> 24) |||
      (v1 &&& 0x0000000000ff0000) ||| ((v1 &&& 0x0000ff0000000000) >>> 16) |||
      ((v1 &&& 0x000000000000ff00) <<< 24) ||| ((v0 &&& 0x00ff000000000000) >>> 8) |||
      ((v1 &&& 0x00000000000000ff) <<< 48) ||| (v0 &&& 0xff00000000000000)

/-- 00_scope.md R8 and R137: `rotl64` and `rotl32` are the rotations, and `Rot32` rotates each half within itself. -/
def Obligations.RotationsRotate : Prop :=
  (∀ (a : Word) (n : Nat), 1 ≤ n → n ≤ 63 → rotl64 a n = a.rotateLeft n) ∧
  (∀ (h : Half) (n : Nat), n ≤ 31 → rotl32 h n = h.rotateLeft n) ∧
  (∀ (x : Word) (n : Nat), n ≤ 31 →
    (rot32 x n).extractLsb' 0 32 = (x.extractLsb' 0 32).rotateLeft n ∧
    (rot32 x n).extractLsb' 32 32 = (x.extractLsb' 32 32).rotateLeft n)

/-- R132: the product of the update step is of two values below 2^32 and never wraps. -/
def Obligations.LaneProductNeverWraps : Prop :=
  ∀ lo hi : Word, (mulHalves lo hi).toNat = (lo.toNat % 2 ^ 32) * (hi.toNat / 2 ^ 32)

/-- R9 and 20_memory.md R45: `le64` of eight bytes is the little-endian sum. -/
def Obligations.LaneWordIsLittleEndian : Prop :=
  ∀ b0 b1 b2 b3 b4 b5 b6 b7 : Byte,
    (le64 [b0, b1, b2, b3, b4, b5, b6, b7]).toNat =
      b0.toNat + b1.toNat * 2 ^ 8 + b2.toNat * 2 ^ 16 + b3.toNat * 2 ^ 24 + b4.toNat * 2 ^ 32 +
        b5.toNat * 2 ^ 40 + b6.toNat * 2 ^ 48 + b7.toNat * 2 ^ 56

/-- The packet of R136: where each tail byte stands, zeros elsewhere, and every tail byte somewhere. -/
def Obligations.PacketHoldsTheTail : Prop :=
  ∀ t : List Byte, 1 ≤ t.length → t.length ≤ 31 →
    let n := t.length
    let r4 := n % 4
    let q := n - r4
    (hwyPacket t).length = 32 ∧
    (∀ j, j < q → (hwyPacket t)[j]? = t[j]?) ∧
    (16 ≤ n → (∀ j, j < 4 → (hwyPacket t)[28 + j]? = t[n - 4 + j]?) ∧
      ∀ p, q ≤ p → p < 28 → (hwyPacket t)[p]? = some 0) ∧
    (n < 16 → r4 ≠ 0 → (hwyPacket t)[16]? = t[q]? ∧ (hwyPacket t)[17]? = t[q + r4 / 2]? ∧
      (hwyPacket t)[18]? = t[q + r4 - 1]? ∧
      ∀ p, q ≤ p → p < 32 → p ∉ [16, 17, 18] → (hwyPacket t)[p]? = some 0) ∧
    (n < 16 → r4 = 0 → ∀ p, q ≤ p → p < 32 → (hwyPacket t)[p]? = some 0) ∧
    (∀ j, j < n → ∃ p, p < 32 ∧ (hwyPacket t)[p]? = t[j]?)

/-- The tail word of R114: the remaining bytes little-endian from byte 0, zeros above them, and the length modulo 256
in byte 7. -/
def Obligations.SipTailWordLayout : Prop :=
  ∀ m : List Byte,
    let r := m.length % 8
    let t := m.drop (8 * (m.length / 8))
    (∀ j, j < r → some (byteOf (sipTailWord m) j) = t[j]?) ∧
    (∀ j, r ≤ j → j < 7 → byteOf (sipTailWord m) j = 0) ∧
    byteOf (sipTailWord m) 7 = BitVec.ofNat 8 (m.length % 256)

/-- Values of the reference instantiation that 95_test_vectors.md sections 4a and 5a list as published anchors. -/
def Obligations.ReferenceAnchors : Prop :=
  let k2 : List Word := [0x0706050403020100, 0x0f0e0d0c0b0a0908]
  let k4 : List Word := [0x0706050403020100, 0x0f0e0d0c0b0a0908, 0x1716151413121110, 0x1f1e1d1c1b1a1918]
  digest .reference .sip24 k2 [0, 1, 2, 3, 4, 5, 6, 7, 8, 9, 10, 11, 12, 13, 14] = 0xa129ca6149be45e5 ∧
  digest .reference .sip24 k2 [] = 0x726fdb47dd0e0e31 ∧
  digest .reference .sip13 k2 [] = 0xabac0158050fc4dc ∧
  digest .reference .hwy k4 [] = 0x907a56de22c26e53 ∧
  digest .reference .hwy k4 [0] = 0x7eab43aac7cddd78 ∧
  digest .reference .hwy k4 [0, 1, 2] = 0x5c6befab8a463d80

/-! ### Status, reset, invariant -/

/-- R25: the fields of `STATUS`. -/
def Obligations.StatusLayout : Prop :=
  ∀ s : State,
    s.status.getLsbD 0 = s.err ∧
    s.status.extractLsb' 1 4 = s.cause ∧
    s.status.extractLsb' 5 1 = (if s.st = .finished then 1 else 0) ∧
    s.status.extractLsb' 6 2 = (if s.alg = .hwy then 0 else if s.alg = .sip24 then 1 else 2) ∧
    s.status.extractLsb' 8 56 = 0

/-- R36: the host's register numbers. -/
def Obligations.StatusPortRegisters : Prop :=
  ∀ s : State, hostRead 0 s = s.status ∧ hostRead 1 s = s.cix ∧ hostRead 2 s = s.fcix ∧ hostRead 3 s = 0

/-- R221: what reset leaves, at any time and from any state, the faulted ones among them, and at State.reset. -/
def Obligations.ResetLeavesTheListedValues : Prop :=
  ∀ t : State, (t = State.reset ∨ ∃ s, hostStep .reset s = some t) →
    t.key = ⟨0, 0, 0, 0⟩ ∧ t.acc = 0 ∧ t.st = .opened ∧ t.alg = .hwy ∧ t.err = false ∧ t.cause = 0 ∧
    t.cix = 0 ∧ t.fcix = 0 ∧ t.cmdq = [] ∧ t.out = []

/-- R34's closing sentence: the state after reset equals the state after `NEW.HWY` executed on it, except that `CIX`
is 0 rather than 1. -/
def Obligations.ResetIsFreshHwyCombiner : Prop :=
  ∀ s : State, exec .newHwy (hostReset s) = .next { hostReset s with cix := 1 } ∧
    exec .newHwy State.reset = .next { State.reset with cix := 1 }

/-- The invariant holds after reset. -/
def Obligations.InvariantHoldsAtReset : Prop := State.reset.Inv

/-- Every step keeps the invariant: canonical memory, a sound fault record (10_state.md R25, R26; 60_exceptions.md
R201), the upper key clear under a two-word key (R21), queues within capacity (R31, R32). -/
def Obligations.StepKeepsInvariant : Prop :=
  ∀ s t : State, s.Inv → Sys2Proof.Machine.step s = .next t → t.Inv

/-- Every move of the host keeps the invariant. -/
def Obligations.HostMovesKeepInvariant : Prop :=
  ∀ (h : HostMove) (s t : State), s.Inv → hostStep h s = some t → t.Inv

/-! ### Runs and the host -/

/-- R236 and R52: a block without a fault whose `CMDQ` holds whole commands of the documented domain, with an unbounded
`OUT`, runs them in order, one a step: the run is the commands' meanings one after another, it ends with an empty
`CMDQ` and no fault, `CIX` has advanced by the number of commands, and `OUT` has gained one word for each command that
pushes. -/
def Obligations.QueuedCommandsRunInOrder : Prop :=
  ∀ (is : List Instr) (s : State), s.err = false → s.cmdq = is.flatMap encode → s.params.outqDepth = none →
    (∀ i ∈ is, Documented s.params i) →
    Host.Core.run Sys2Proof.core is.length s = execAll is s ∧
    ∃ t : State, Host.Core.run Sys2Proof.core is.length s = .next t ∧ endedWell t = true ∧
      t.cix = s.cix + BitVec.ofNat 64 is.length ∧
      t.out.take s.out.length = s.out ∧ t.out.length = s.out.length + (is.filter pushesResult).length

/-- 10_state.md R31 and R32: both queues are first-in first-out. Pushing words one by one appends them in order, at any
depth that has room for them; a full queue takes none; a pop takes the oldest result; a result is appended behind the
older ones (EveryStepHoldsFaultsOrRetires). -/
def Obligations.HostQueuesAreFifo : Prop :=
  (∀ (ws : List Word) (s : State), (∀ d, s.params.cmdqDepth = some d → s.cmdq.length + ws.length ≤ d) →
    ws.foldlM (fun t w => hostPush w t) s = some { s with cmdq := s.cmdq ++ ws }) ∧
  (∀ (s : State) (w : Word) (d : Nat), s.params.cmdqDepth = some d → d ≤ s.cmdq.length → hostPush w s = none) ∧
  (∀ (s : State) (v : Word) (rest : List Word), s.out = v :: rest → hostPop s = some (v, { s with out := rest })) ∧
  (∀ s : State, s.out = [] → hostPop s = none)

/-- 20_memory.md R57: no move of the host changes a byte of the range of any `WRITE` or `DIGEST.*` that is wholly pushed
and not retired, wherever it stands in `CMDQ`. THE MODEL'S CHOICE (log 9): the duty is kept by the absence of the
moves that would break it. -/
def Obligations.HostCannotTouchPendingMessage : Prop :=
  ∀ (h : HostMove) (s t : State) (is : List Instr) (rest : List Word) (i : Instr) (addr len : Word),
    hostStep h s = some t → s.cmdq = is.flatMap encode ++ rest → i ∈ is → namedRange i = some (addr, len) →
    ∀ x, addr.toNat ≤ x → x < addr.toNat + len.toNat → t.msg.read x = s.msg.read x

/-- The host's write of message memory (60_exceptions.md R216): where it is possible it changes just the byte written,
in a memory of canonical form; and it is possible at every address in no range of a pending command (20_memory.md R57).
THE MODEL'S CHOICE (log 9): it is not possible at another. -/
def Obligations.HostWriteChangesOneByte : Prop :=
  (∀ (s t : State) (a : Word) (b : Byte), Memory.wf s.msg = true → hostWriteByte a b s = some t →
    t = { s with msg := t.msg } ∧ t.msg.read a.toNat = b ∧ ∀ x, x ≠ a.toNat → t.msg.read x = s.msg.read x) ∧
  (∀ (s : State) (a : Word) (b : Byte) (is : List Instr), s.cmdq = is.flatMap encode →
    (∀ i ∈ is, ∀ addr len, namedRange i = some (addr, len) →
      ¬ (addr.toNat ≤ a.toNat ∧ a.toNat < addr.toNat + len.toNat)) →
    ∃ t, hostWriteByte a b s = some t)

/-- Whole commands are pushed contiguously (60_exceptions.md R214, R216): submitting a command appends its words; it is
possible behind whole commands when there is room; and it is not possible behind a partly pushed command, whose
operands its words would become. THE MODEL'S CHOICE (log 10): the duty is kept by the absence of that move. -/
def Obligations.HostSubmitsBetweenCommands : Prop :=
  (∀ (i : Instr) (s t : State), hostSubmit i s = some t → t = { s with cmdq := s.cmdq ++ encode i }) ∧
  (∀ (is : List Instr) (i : Instr) (s : State), s.cmdq = is.flatMap encode →
    (∀ d, s.params.cmdqDepth = some d → s.cmdq.length + instrWords i ≤ d) →
    ∃ t, hostSubmit i s = some t ∧ t.cmdq = (is ++ [i]).flatMap encode) ∧
  (∀ (is : List Instr) (j i : Instr) (n : Nat) (s : State), 0 < n → n < instrWords j →
    s.cmdq = is.flatMap encode ++ (encode j).take n → hostSubmit i s = none)

/-- A command the host submits to an idle block is the next thing the block executes (R216, R214). -/
def Obligations.SubmittedCommandRuns : Prop :=
  ∀ (i : Instr) (s t : State), s.err = false → s.cmdq = [] → hostSubmit i s = some t →
    step t = exec i t ∧ t = { s with cmdq := encode i }
end

