-- ==== Sys2Proof/Laws/State.lean ====
section
/-! SUPPORT. One lemma per field of `State` per update, all true by definition. -/

namespace Sys2Proof.Machine

/-! ### `pushOut` -/

@[simp] theorem pushOut_key (v : Word) (s : State) : (pushOut v s).key = s.key := rfl
@[simp] theorem pushOut_acc (v : Word) (s : State) : (pushOut v s).acc = s.acc := rfl
@[simp] theorem pushOut_alg (v : Word) (s : State) : (pushOut v s).alg = s.alg := rfl
@[simp] theorem pushOut_st (v : Word) (s : State) : (pushOut v s).st = s.st := rfl
@[simp] theorem pushOut_err (v : Word) (s : State) : (pushOut v s).err = s.err := rfl
@[simp] theorem pushOut_cause (v : Word) (s : State) : (pushOut v s).cause = s.cause := rfl
@[simp] theorem pushOut_cix (v : Word) (s : State) : (pushOut v s).cix = s.cix := rfl
@[simp] theorem pushOut_fcix (v : Word) (s : State) : (pushOut v s).fcix = s.fcix := rfl
@[simp] theorem pushOut_lanes (v : Word) (s : State) : (pushOut v s).lanes = s.lanes := rfl
@[simp] theorem pushOut_cmdq (v : Word) (s : State) : (pushOut v s).cmdq = s.cmdq := rfl
@[simp] theorem pushOut_out (v : Word) (s : State) : (pushOut v s).out = s.out ++ [v] := rfl
@[simp] theorem pushOut_caps (v : Word) (s : State) : (pushOut v s).caps = s.caps := rfl
@[simp] theorem pushOut_msg (v : Word) (s : State) : (pushOut v s).msg = s.msg := rfl
@[simp] theorem pushOut_params (v : Word) (s : State) : (pushOut v s).params = s.params := rfl
@[simp] theorem pushOut_freeIx (v : Word) (s : State) : (pushOut v s).freeIx = s.freeIx := rfl

/-! ### `retire` -/

@[simp] theorem retire_key (n : Nat) (s : State) : (retire n s).key = s.key := rfl
@[simp] theorem retire_acc (n : Nat) (s : State) : (retire n s).acc = s.acc := rfl
@[simp] theorem retire_alg (n : Nat) (s : State) : (retire n s).alg = s.alg := rfl
@[simp] theorem retire_st (n : Nat) (s : State) : (retire n s).st = s.st := rfl
@[simp] theorem retire_err (n : Nat) (s : State) : (retire n s).err = s.err := rfl
@[simp] theorem retire_cause (n : Nat) (s : State) : (retire n s).cause = s.cause := rfl
@[simp] theorem retire_cix (n : Nat) (s : State) : (retire n s).cix = s.cix + 1 := rfl
@[simp] theorem retire_fcix (n : Nat) (s : State) : (retire n s).fcix = s.fcix := rfl
@[simp] theorem retire_lanes (n : Nat) (s : State) : (retire n s).lanes = s.lanes := rfl
@[simp] theorem retire_cmdq (n : Nat) (s : State) : (retire n s).cmdq = s.cmdq.drop n := rfl
@[simp] theorem retire_out (n : Nat) (s : State) : (retire n s).out = s.out := rfl
@[simp] theorem retire_caps (n : Nat) (s : State) : (retire n s).caps = s.caps := rfl
@[simp] theorem retire_msg (n : Nat) (s : State) : (retire n s).msg = s.msg := rfl
@[simp] theorem retire_params (n : Nat) (s : State) : (retire n s).params = s.params := rfl
@[simp] theorem retire_freeIx (n : Nat) (s : State) : (retire n s).freeIx = s.freeIx := rfl

/-! ### `clobberLanes` -/

@[simp] theorem clobberLanes_key (s : State) : (clobberLanes s).key = s.key := rfl
@[simp] theorem clobberLanes_acc (s : State) : (clobberLanes s).acc = s.acc := rfl
@[simp] theorem clobberLanes_alg (s : State) : (clobberLanes s).alg = s.alg := rfl
@[simp] theorem clobberLanes_st (s : State) : (clobberLanes s).st = s.st := rfl
@[simp] theorem clobberLanes_err (s : State) : (clobberLanes s).err = s.err := rfl
@[simp] theorem clobberLanes_cause (s : State) : (clobberLanes s).cause = s.cause := rfl
@[simp] theorem clobberLanes_cix (s : State) : (clobberLanes s).cix = s.cix := rfl
@[simp] theorem clobberLanes_fcix (s : State) : (clobberLanes s).fcix = s.fcix := rfl
@[simp] theorem clobberLanes_lanes (s : State) : (clobberLanes s).lanes = freeLanes s.freeIx := rfl
@[simp] theorem clobberLanes_cmdq (s : State) : (clobberLanes s).cmdq = s.cmdq := rfl
@[simp] theorem clobberLanes_out (s : State) : (clobberLanes s).out = s.out := rfl
@[simp] theorem clobberLanes_caps (s : State) : (clobberLanes s).caps = s.caps := rfl
@[simp] theorem clobberLanes_msg (s : State) : (clobberLanes s).msg = s.msg := rfl
@[simp] theorem clobberLanes_params (s : State) : (clobberLanes s).params = s.params := rfl
@[simp] theorem clobberLanes_freeIx (s : State) : (clobberLanes s).freeIx = s.freeIx + 1 := rfl

/-! ### `loadCombiner` -/

@[simp] theorem loadCombiner_key (k : Quad) (a : Alg) (s : State) : (loadCombiner k a s).key = k := rfl
@[simp] theorem loadCombiner_acc (k : Quad) (a : Alg) (s : State) : (loadCombiner k a s).acc = 0 := rfl
@[simp] theorem loadCombiner_alg (k : Quad) (a : Alg) (s : State) : (loadCombiner k a s).alg = a := rfl
@[simp] theorem loadCombiner_st (k : Quad) (a : Alg) (s : State) : (loadCombiner k a s).st = .opened := rfl
@[simp] theorem loadCombiner_err (k : Quad) (a : Alg) (s : State) : (loadCombiner k a s).err = s.err := rfl
@[simp] theorem loadCombiner_cause (k : Quad) (a : Alg) (s : State) : (loadCombiner k a s).cause = s.cause := rfl
@[simp] theorem loadCombiner_cix (k : Quad) (a : Alg) (s : State) : (loadCombiner k a s).cix = s.cix := rfl
@[simp] theorem loadCombiner_fcix (k : Quad) (a : Alg) (s : State) : (loadCombiner k a s).fcix = s.fcix := rfl
@[simp] theorem loadCombiner_lanes (k : Quad) (a : Alg) (s : State) : (loadCombiner k a s).lanes = s.lanes := rfl
@[simp] theorem loadCombiner_cmdq (k : Quad) (a : Alg) (s : State) : (loadCombiner k a s).cmdq = s.cmdq := rfl
@[simp] theorem loadCombiner_out (k : Quad) (a : Alg) (s : State) : (loadCombiner k a s).out = s.out := rfl
@[simp] theorem loadCombiner_caps (k : Quad) (a : Alg) (s : State) : (loadCombiner k a s).caps = s.caps := rfl
@[simp] theorem loadCombiner_msg (k : Quad) (a : Alg) (s : State) : (loadCombiner k a s).msg = s.msg := rfl
@[simp] theorem loadCombiner_params (k : Quad) (a : Alg) (s : State) : (loadCombiner k a s).params = s.params := rfl
@[simp] theorem loadCombiner_freeIx (k : Quad) (a : Alg) (s : State) : (loadCombiner k a s).freeIx = s.freeIx := rfl

/-! ### `raiseFault` -/

@[simp] theorem raiseFault_key (c : Cause) (s : State) : (raiseFault c s).key = s.key := rfl
@[simp] theorem raiseFault_acc (c : Cause) (s : State) : (raiseFault c s).acc = s.acc := rfl
@[simp] theorem raiseFault_alg (c : Cause) (s : State) : (raiseFault c s).alg = s.alg := rfl
@[simp] theorem raiseFault_st (c : Cause) (s : State) : (raiseFault c s).st = s.st := rfl
@[simp] theorem raiseFault_err (c : Cause) (s : State) : (raiseFault c s).err = true := rfl
@[simp] theorem raiseFault_cause (c : Cause) (s : State) : (raiseFault c s).cause = causeCode c := rfl
@[simp] theorem raiseFault_cix (c : Cause) (s : State) : (raiseFault c s).cix = s.cix := rfl
@[simp] theorem raiseFault_fcix (c : Cause) (s : State) : (raiseFault c s).fcix = s.cix := rfl
@[simp] theorem raiseFault_lanes (c : Cause) (s : State) : (raiseFault c s).lanes = s.lanes := rfl
@[simp] theorem raiseFault_cmdq (c : Cause) (s : State) : (raiseFault c s).cmdq = s.cmdq := rfl
@[simp] theorem raiseFault_out (c : Cause) (s : State) : (raiseFault c s).out = s.out := rfl
@[simp] theorem raiseFault_caps (c : Cause) (s : State) : (raiseFault c s).caps = s.caps := rfl
@[simp] theorem raiseFault_msg (c : Cause) (s : State) : (raiseFault c s).msg = s.msg := rfl
@[simp] theorem raiseFault_params (c : Cause) (s : State) : (raiseFault c s).params = s.params := rfl
@[simp] theorem raiseFault_freeIx (c : Cause) (s : State) : (raiseFault c s).freeIx = s.freeIx := rfl

/-! ### `withFault` -/

@[simp] theorem withFault_key (c : BitVec 4) (s : State) : (withFault c s).key = s.key := rfl
@[simp] theorem withFault_acc (c : BitVec 4) (s : State) : (withFault c s).acc = s.acc := rfl
@[simp] theorem withFault_alg (c : BitVec 4) (s : State) : (withFault c s).alg = s.alg := rfl
@[simp] theorem withFault_st (c : BitVec 4) (s : State) : (withFault c s).st = s.st := rfl
@[simp] theorem withFault_err (c : BitVec 4) (s : State) : (withFault c s).err = true := rfl
@[simp] theorem withFault_cause (c : BitVec 4) (s : State) : (withFault c s).cause = c := rfl
@[simp] theorem withFault_cix (c : BitVec 4) (s : State) : (withFault c s).cix = s.cix := rfl
@[simp] theorem withFault_fcix (c : BitVec 4) (s : State) : (withFault c s).fcix = s.cix := rfl
@[simp] theorem withFault_lanes (c : BitVec 4) (s : State) : (withFault c s).lanes = s.lanes := rfl
@[simp] theorem withFault_cmdq (c : BitVec 4) (s : State) : (withFault c s).cmdq = s.cmdq := rfl
@[simp] theorem withFault_out (c : BitVec 4) (s : State) : (withFault c s).out = s.out := rfl
@[simp] theorem withFault_caps (c : BitVec 4) (s : State) : (withFault c s).caps = s.caps := rfl
@[simp] theorem withFault_msg (c : BitVec 4) (s : State) : (withFault c s).msg = s.msg := rfl
@[simp] theorem withFault_params (c : BitVec 4) (s : State) : (withFault c s).params = s.params := rfl
@[simp] theorem withFault_freeIx (c : BitVec 4) (s : State) : (withFault c s).freeIx = s.freeIx := rfl

/-! ### `resetBlock` -/

@[simp] theorem resetBlock_key (s : State) : (resetBlock s).key = Quad.zero := rfl
@[simp] theorem resetBlock_acc (s : State) : (resetBlock s).acc = 0 := rfl
@[simp] theorem resetBlock_alg (s : State) : (resetBlock s).alg = .hwy := rfl
@[simp] theorem resetBlock_st (s : State) : (resetBlock s).st = .opened := rfl
@[simp] theorem resetBlock_err (s : State) : (resetBlock s).err = false := rfl
@[simp] theorem resetBlock_cause (s : State) : (resetBlock s).cause = 0 := rfl
@[simp] theorem resetBlock_cix (s : State) : (resetBlock s).cix = 0 := rfl
@[simp] theorem resetBlock_fcix (s : State) : (resetBlock s).fcix = 0 := rfl
@[simp] theorem resetBlock_lanes (s : State) : (resetBlock s).lanes = freeLanes s.freeIx := rfl
@[simp] theorem resetBlock_cmdq (s : State) : (resetBlock s).cmdq = [] := rfl
@[simp] theorem resetBlock_out (s : State) : (resetBlock s).out = [] := rfl
@[simp] theorem resetBlock_caps (s : State) : (resetBlock s).caps = s.caps := rfl
@[simp] theorem resetBlock_msg (s : State) : (resetBlock s).msg = s.msg := rfl
@[simp] theorem resetBlock_params (s : State) : (resetBlock s).params = s.params := rfl
@[simp] theorem resetBlock_freeIx (s : State) : (resetBlock s).freeIx = s.freeIx + 1 := rfl

end Sys2Proof.Machine
end

