-- ==== Sys2Proof/Laws/Memory.lean ====
section
/-! SUPPORT. The laws of the message memory: a write keeps the canonical form, a read gives the last value written
there and is unchanged elsewhere, and two canonical memories with the same reads are equal. -/

namespace Sys2Proof.Machine

theorem Memory.wfFrom_cons (lo a : Nat) (b : Byte) (m : Memory) :
    Memory.wfFrom lo ((a, b) :: m) = true ↔
      lo ≤ a ∧ a < addrSpace ∧ b ≠ Memory.absent ∧ Memory.wfFrom (a + 1) m = true := by
  simp [Memory.wfFrom, and_assoc]

theorem Memory.wfFrom_mono {lo lo' : Nat} (h : lo' ≤ lo) {m : Memory} (hm : Memory.wfFrom lo m = true) :
    Memory.wfFrom lo' m = true := by
  cases m with
  | nil => rfl
  | cons e m =>
    obtain ⟨a, b⟩ := e
    rw [Memory.wfFrom_cons] at hm ⊢
    exact ⟨h.trans hm.1, hm.2⟩

theorem Memory.read_below {lo : Nat} {m : Memory} (hm : Memory.wfFrom lo m = true) {x : Nat} (hx : x < lo) :
    m.read x = Memory.absent := by
  induction m generalizing lo with
  | nil => rfl
  | cons e m ih =>
    obtain ⟨a, b⟩ := e
    rw [Memory.wfFrom_cons] at hm
    have : a ≠ x := by omega
    simp only [Memory.read, this, if_false]
    exact ih hm.2.2.2 (by omega)

/-- A write within the address space keeps the canonical form. -/
theorem Memory.write_wfFrom {lo : Nat} {m : Memory} (hm : Memory.wfFrom lo m = true) {x : Nat} (hlo : lo ≤ x)
    (hx : x < addrSpace) (v : Byte) : Memory.wfFrom lo (m.write x v) = true := by
  induction m generalizing lo with
  | nil =>
    by_cases hv : v = Memory.absent
    · simp [Memory.write, hv, Memory.wfFrom]
    · simp [Memory.write, hv, Memory.wfFrom, hlo, hx]
  | cons e m ih =>
    obtain ⟨a, b⟩ := e
    have hm' := (Memory.wfFrom_cons lo a b m).1 hm
    simp only [Memory.write]
    split
    · split
      · exact hm
      · rw [Memory.wfFrom_cons, Memory.wfFrom_cons]
        exact ⟨hlo, hx, ‹_›, by omega, hm'.2⟩
    · split
      · split
        · exact Memory.wfFrom_mono (by omega) hm'.2.2.2
        · subst x
          rw [Memory.wfFrom_cons]
          exact ⟨hm'.1, hm'.2.1, ‹_›, hm'.2.2.2⟩
      · rw [Memory.wfFrom_cons]
        exact ⟨hm'.1, hm'.2.1, hm'.2.2.1, ih hm'.2.2.2 (by omega)⟩

theorem Memory.write_wf {m : Memory} (hm : m.wf = true) {x : Nat} (hx : x < addrSpace) (v : Byte) :
    (m.write x v).wf = true := Memory.write_wfFrom hm (Nat.zero_le _) hx v

/-- A write leaves every other address as it was. -/
theorem Memory.read_write_other (m : Memory) {x y : Nat} (h : y ≠ x) (v : Byte) :
    (m.write x v).read y = m.read y := by
  induction m with
  | nil =>
    by_cases hv : v = Memory.absent
    · simp [Memory.write, hv]
    · simp [Memory.write, hv, Memory.read, h.symm]
  | cons e m ih =>
    obtain ⟨a, b⟩ := e
    simp only [Memory.write]
    split
    · split
      · rfl
      · simp [Memory.read, h.symm]
    · split
      · subst x
        split <;> simp [Memory.read, h.symm]
      · simp only [Memory.read, ih]

/-- A read of the written address gives the value written. -/
theorem Memory.read_write_same {lo : Nat} {m : Memory} (hm : Memory.wfFrom lo m = true) (x : Nat) (v : Byte) :
    (m.write x v).read x = v := by
  induction m generalizing lo with
  | nil =>
    by_cases hv : v = Memory.absent
    · simp [Memory.write, hv, Memory.read]
    · simp [Memory.write, hv, Memory.read]
  | cons e m ih =>
    obtain ⟨a, b⟩ := e
    have hm' := (Memory.wfFrom_cons lo a b m).1 hm
    simp only [Memory.write]
    split
    · split
      · subst v
        have : a ≠ x := by omega
        simp only [Memory.read, this, if_false]
        exact Memory.read_below hm'.2.2.2 (by omega)
      · simp [Memory.read]
    · split
      · subst x
        split
        · subst v
          exact Memory.read_below hm'.2.2.2 (by omega)
        · simp [Memory.read]
      · have : a ≠ x := by omega
        simp only [Memory.read, this, if_false]
        exact ih hm'.2.2.2

/-- Two canonical memories that read alike are equal. -/
theorem Memory.ext_of_read {lo : Nat} {m m' : Memory} (hm : Memory.wfFrom lo m = true)
    (hm' : Memory.wfFrom lo m' = true) (h : ∀ a, m.read a = m'.read a) : m = m' := by
  induction m generalizing lo m' with
  | nil =>
    cases m' with
    | nil => rfl
    | cons e m' =>
      obtain ⟨a, b⟩ := e
      have := h a
      rw [Memory.wfFrom_cons] at hm'
      simp [Memory.read] at this
      exact absurd this.symm hm'.2.2.1
  | cons e m ih =>
    obtain ⟨a, b⟩ := e
    rw [Memory.wfFrom_cons] at hm
    cases m' with
    | nil =>
      have := h a
      simp [Memory.read] at this
      exact absurd this hm.2.2.1
    | cons e' m' =>
      obtain ⟨a', b'⟩ := e'
      rw [Memory.wfFrom_cons] at hm'
      have haa : a = a' := by
        rcases Nat.lt_trichotomy a a' with hlt | heq | hgt
        · have := h a
          rw [Memory.read, if_pos rfl, Memory.read, if_neg (by omega),
            Memory.read_below hm'.2.2.2 (by omega)] at this
          exact absurd this hm.2.2.1
        · exact heq
        · have := h a'
          rw [Memory.read, if_neg (by omega), Memory.read_below hm.2.2.2 (by omega), Memory.read, if_pos rfl] at this
          exact absurd this.symm hm'.2.2.1
      subst haa
      have hb : b = b' := by simpa [Memory.read] using h a
      subst hb
      have : m = m' := by
        refine ih hm.2.2.2 hm'.2.2.2 fun x => ?_
        by_cases hx : a = x
        · subst hx
          rw [Memory.read_below hm.2.2.2 (by omega), Memory.read_below hm'.2.2.2 (by omega)]
        · simpa [Memory.read, hx] using h x
      rw [this]

theorem Memory.reset_wf : State.reset.msg.wf = true := rfl

@[simp] theorem Memory.bytes_length (m : Memory) (addr n : Nat) : (m.bytes addr n).length = n := by
  simp [Memory.bytes]

theorem Memory.bytes_getElem? (m : Memory) (addr n j : Nat) (h : j < n) :
    (m.bytes addr n)[j]? = some (m.read (addr + j)) := by
  simp [Memory.bytes, h]

/-- The bytes of a range depend on the reads in the range alone. -/
theorem Memory.bytes_congr (m m' : Memory) (a b n : Nat) (h : ∀ j, j < n → m.read (a + j) = m'.read (b + j)) :
    m.bytes a n = m'.bytes b n := by
  apply List.map_congr_left
  intro j hj
  exact h j (List.mem_range.1 hj)

end Sys2Proof.Machine
end

