-- ==== Sys2Proof/Laws/Operands.lean ====
section
/-! SUPPORT. What `memRead` answers, said once: the range checks as statements about single addresses, the inversion
of `memRead`, and what it depends on. -/

namespace Sys2Proof.Machine

theorem regionMeets_iff (r : Region) (addr n : Nat) :
    regionMeets r addr n = true ↔ ∃ a, addr ≤ a ∧ a < addr + n ∧ regionHas r a = true := by
  simp only [regionMeets, regionHas, Bool.and_eq_true, decide_eq_true_eq]
  constructor
  · rintro ⟨⟨⟨h1, h2⟩, h3⟩, h4⟩
    exact ⟨max r.base addr, by omega, by omega, by omega, by omega⟩
  · rintro ⟨a, h1, h2, h3, h4⟩
    omega

/-- A range meets a kind of region exactly when one of its addresses lies in a region of that kind. -/
theorem rangeMeets_iff (p : Params) (kind : RegionKind) (addr n : Nat) :
    rangeMeets p kind addr n = true ↔
      ∃ a, addr ≤ a ∧ a < addr + n ∧ (p.regions.any fun r => r.kind == kind && regionHas r a) = true := by
  simp only [rangeMeets, List.any_eq_true, Bool.and_eq_true, regionMeets_iff]
  constructor
  · rintro ⟨r, hr, hk, a, h1, h2, h3⟩
    exact ⟨a, h1, h2, r, hr, hk, h3⟩
  · rintro ⟨a, h1, h2, r, hr, hk, h3⟩
    exact ⟨r, hr, hk, a, h1, h2, h3⟩

theorem rangeMeets_unreadable_iff (p : Params) (addr n : Nat) :
    rangeMeets p .unreadable addr n = true ↔ ∃ a, addr ≤ a ∧ a < addr + n ∧ msgReadable p a = false := by
  simp only [rangeMeets_iff, msgReadable, Bool.not_eq_false']

theorem rangeMeets_sideEffect_iff (p : Params) (addr n : Nat) :
    rangeMeets p .sideEffect addr n = true ↔ ∃ a, addr ≤ a ∧ a < addr + n ∧ msgSideEffect p a = true := by
  simp only [rangeMeets_iff, msgSideEffect]

theorem rangeWraps_iff (addr len : Word) : rangeWraps addr len = true ↔ 2 ^ 64 < addr.toNat + len.toNat :=
  decide_eq_true_iff

theorem toNat_pos_of_ne_zero {len : Word} (h : len ≠ 0) : 0 < len.toNat := by
  rcases Nat.eq_zero_or_pos len.toNat with h0 | h0
  · exact absurd (BitVec.eq_of_toNat_eq (by simpa using h0)) h
  · exact h0

theorem memRead_empty (addr : Word) (s : State) : memRead addr 0 s = .bytes [] := by simp [memRead]

theorem memRead_wraps {addr len : Word} (s : State) (h0 : len ≠ 0) (h : 2 ^ 64 < addr.toNat + len.toNat) :
    memRead addr len s = .raise .msgRange := by
  rw [memRead, if_neg h0, if_pos ((rangeWraps_iff _ _).2 h)]

theorem memRead_unreadable {addr len : Word} {s : State} (h0 : len ≠ 0) (h : addr.toNat + len.toNat ≤ 2 ^ 64)
    (hr : ∃ a, addr.toNat ≤ a ∧ a < addr.toNat + len.toNat ∧ msgReadable s.params a = false) :
    memRead addr len s = .raise .msgAccess := by
  rw [memRead, if_neg h0, if_neg (by rw [rangeWraps_iff]; omega), if_pos ((rangeMeets_unreadable_iff _ _ _).2 hr)]

theorem memRead_sideEffect {addr len : Word} {s : State} (h0 : len ≠ 0) (h : addr.toNat + len.toNat ≤ 2 ^ 64)
    (hr : ∀ a, addr.toNat ≤ a → a < addr.toNat + len.toNat → msgReadable s.params a = true)
    (hs : ∃ a, addr.toNat ≤ a ∧ a < addr.toNat + len.toNat ∧ msgSideEffect s.params a = true) :
    memRead addr len s = .sideEffect := by
  rw [memRead, if_neg h0, if_neg (by rw [rangeWraps_iff]; omega), if_neg, if_pos]
  · exact (rangeMeets_sideEffect_iff _ _ _).2 hs
  · rw [rangeMeets_unreadable_iff]
    rintro ⟨a, h1, h2, h3⟩
    simp [hr a h1 h2] at h3

theorem memRead_legal {addr len : Word} {s : State} (h : MessageLegal s.params addr len) :
    memRead addr len s = .bytes (s.msg.bytes addr.toNat len.toNat) := by
  by_cases h0 : len = 0
  · subst h0
    simp [memRead, Memory.bytes]
  · rcases h with h | ⟨hr, ha⟩
    · exact absurd h h0
    · rw [memRead, if_neg h0, if_neg (by rw [rangeWraps_iff]; omega), if_neg, if_neg]
      · rw [rangeMeets_sideEffect_iff]
        rintro ⟨a, h1, h2, h3⟩
        simp [(ha a h1 h2).2] at h3
      · rw [rangeMeets_unreadable_iff]
        rintro ⟨a, h1, h2, h3⟩
        simp [(ha a h1 h2).1] at h3

/-- Everything `memRead` can answer, and when. -/
theorem memRead_cases (addr len : Word) (s : State) :
    (memRead addr len s = .bytes (s.msg.bytes addr.toNat len.toNat) ∧ MessageLegal s.params addr len) ∨
    (memRead addr len s = .raise .msgRange ∧ len ≠ 0 ∧ 2 ^ 64 < addr.toNat + len.toNat) ∨
    (memRead addr len s = .raise .msgAccess ∧ len ≠ 0 ∧ addr.toNat + len.toNat ≤ 2 ^ 64) ∨
    (memRead addr len s = .sideEffect ∧ len ≠ 0 ∧ addr.toNat + len.toNat ≤ 2 ^ 64) := by
  by_cases h0 : len = 0
  · exact .inl ⟨memRead_legal (.inl h0), .inl h0⟩
  · by_cases hw : 2 ^ 64 < addr.toNat + len.toNat
    · exact .inr (.inl ⟨memRead_wraps s h0 hw, h0, hw⟩)
    · by_cases hr : ∃ a, addr.toNat ≤ a ∧ a < addr.toNat + len.toNat ∧ msgReadable s.params a = false
      · exact .inr (.inr (.inl ⟨memRead_unreadable h0 (by omega) hr, h0, by omega⟩))
      · have hr' : ∀ a, addr.toNat ≤ a → a < addr.toNat + len.toNat → msgReadable s.params a = true := by
          intro a h1 h2
          by_contra h3
          exact hr ⟨a, h1, h2, by simpa using h3⟩
        by_cases hs : ∃ a, addr.toNat ≤ a ∧ a < addr.toNat + len.toNat ∧ msgSideEffect s.params a = true
        · exact .inr (.inr (.inr ⟨memRead_sideEffect h0 (by omega) hr' hs, h0, by omega⟩))
        · have hl : MessageLegal s.params addr len := by
            refine .inr ⟨by omega, fun a h1 h2 => ⟨hr' a h1 h2, ?_⟩⟩
            by_contra h3
            exact hs ⟨a, h1, h2, by simpa using h3⟩
          exact .inl ⟨memRead_legal hl, hl⟩

/-- `memRead` depends on the parameters and the bytes of its range alone (20_memory.md R44). -/
theorem memRead_congr {addr len : Word} {s t : State} (hp : t.params = s.params)
    (hm : ∀ a, addr.toNat ≤ a → a < addr.toNat + len.toNat → t.msg.read a = s.msg.read a) :
    memRead addr len t = memRead addr len s := by
  have hb : t.msg.bytes addr.toNat len.toNat = s.msg.bytes addr.toNat len.toNat :=
    Memory.bytes_congr _ _ _ _ _ fun j hj => hm _ (Nat.le_add_right _ _) (Nat.add_lt_add_left hj _)
  simp only [memRead, hp, hb]

end Sys2Proof.Machine
end

