-- ==== Sys2Proof/Laws/Exec.lean ====
section
/-! SUPPORT. What a command can do, said once for each shared operation and once for `exec` and `step`. -/

namespace Sys2Proof.Machine

@[simp] theorem selectEngine_dispatch (c : Caps) : selectEngine c .dispatch = .scalar := by cases c; rfl
@[simp] theorem selectEngine_scalar (c : Caps) : selectEngine c .scalar = .scalar := rfl
@[simp] theorem selectEngine_sse41 (c : Caps) : selectEngine c .sse41 = .absent .sse41 := rfl
@[simp] theorem selectEngine_avx2 (c : Caps) : selectEngine c .avx2 = .absent .avx2 := rfl

theorem keyOf_eq (a : Alg) (k : Quad) :
    keyOf a k = if a = .hwy then [k.x0, k.x1, k.x2, k.x3] else [k.x0, k.x1] := by
  cases a <;> rfl

theorem outFull_eq_false_iff (s : State) : outFull s = false ↔ OutHasRoom s := by
  unfold outFull OutHasRoom
  cases s.params.outqDepth with
  | none => simp
  | some n => simp

theorem causeCode_range (c : Cause) : 1 ≤ (causeCode c).toNat ∧ (causeCode c).toNat ≤ 5 := by
  cases c <;> decide

theorem raiseFault_eq_withFault (c : Cause) (s : State) : raiseFault c s = withFault (causeCode c) s := rfl

/-- A selected scalar engine reads and digests; what comes of it follows `memRead`. -/
theorem digestMessage_scalar {a : Alg} {b : Backend} {k : List Word} {addr len : Word} {s : State}
    (hb : selectEngine s.caps b = .scalar) :
    digestMessage a b k addr len s =
      match memRead addr len s with
      | .bytes m => .value (digest s.params.engine a k m)
      | .raise c => .raise c
      | .sideEffect => .sideEffect := by
  cases h : memRead addr len s <;> simp only [digestMessage, hb, h]

theorem digestMessage_legal {a : Alg} {b : Backend} {k : List Word} {addr len : Word} {s : State}
    (hb : selectEngine s.caps b = .scalar) (h : MessageLegal s.params addr len) :
    digestMessage a b k addr len s =
      .value (digest s.params.engine a k (s.msg.bytes addr.toNat len.toNat)) := by
  rw [digestMessage_scalar hb, memRead_legal h]

/-- Everything `digestCommand` can do: a fault entry, a refusal, a hold, or a push and retirement. -/
theorem digestCommand_cases (a : Alg) (b : Backend) (n : Nat) (k : List Word) (addr len : Word) (s : State) :
    (∃ c, digestCommand a b n k addr len s = .next (raiseFault c s)) ∨
    digestCommand a b n k addr len s = .refused .messageSideEffect ∨
    (outFull s = true ∧ digestCommand a b n k addr len s = .next s) ∨
    (outFull s = false ∧
      ∃ d, digestCommand a b n k addr len s = .next (retire n (pushOut d (clobberLanes s)))) := by
  unfold digestCommand
  split
  · exact .inl ⟨_, rfl⟩
  · exact .inr (.inl rfl)
  · split
    · exact .inr (.inr (.inl ⟨‹_›, rfl⟩))
    · exact .inr (.inr (.inr ⟨by simpa using ‹¬outFull s = true›, _, rfl⟩))

/-- The digest of a message depends on the parameters and the bytes of its range alone (20_memory.md R44, R46). -/
theorem digestMessage_congr {a : Alg} {b : Backend} {k : List Word} {addr len : Word} {s t : State}
    (hp : t.params = s.params)
    (hm : ∀ x, addr.toNat ≤ x → x < addr.toNat + len.toNat → t.msg.read x = s.msg.read x) :
    digestMessage a b k addr len t = digestMessage a b k addr len s := by
  unfold digestMessage
  rw [memRead_congr hp hm, hp]

theorem outFull_congr {s t : State} (hp : t.params = s.params) (ho : t.out = s.out) : outFull t = outFull s := by
  simp only [outFull, hp, ho]

/-- A selected absent engine faults, whatever the operands (43_backend_dispatch.md R152). -/
theorem digestCommand_absent {a : Alg} {b : Backend} {n : Nat} {k : List Word} {addr len : Word} {s : State}
    {x : Accel} (hb : selectEngine s.caps b = .absent x) :
    digestCommand a b n k addr len s = .next (raiseFault .backendUnavailable s) := by
  simp only [digestCommand, digestMessage, hb]

/-- A `DIGEST` of the scalar engine on a legal message with room in `OUT` pushes the digest and retires. -/
theorem digestCommand_legal {a : Alg} {b : Backend} {n : Nat} {k : List Word} {addr len : Word} {s : State}
    (hb : selectEngine s.caps b = .scalar) (h : MessageLegal s.params addr len) (hr : OutHasRoom s) :
    digestCommand a b n k addr len s =
      .next (retire n (pushOut (digest s.params.engine a k (s.msg.bytes addr.toNat len.toNat)) (clobberLanes s))) := by
  simp only [digestCommand, digestMessage_legal hb h, (outFull_eq_false_iff s).2 hr, Bool.false_eq_true, if_false]

/-- Everything `WRITE` can do: a fault entry, a refusal, or a fold and retirement. -/
theorem execWrite_cases (addr len : Word) (s : State) :
    (∃ c, execWrite addr len s = .next (raiseFault c s)) ∨
    execWrite addr len s = .refused .messageSideEffect ∨
    (∃ d, execWrite addr len s =
      .next (retire 3 (clobberLanes { s with acc := combine s.acc d, st := .opened }))) := by
  unfold execWrite
  split
  · exact .inl ⟨_, rfl⟩
  · exact .inr (.inl rfl)
  · exact .inr (.inr ⟨_, rfl⟩)

/-- Everything `FINISH` can do: a hold, or a push and retirement. -/
theorem execFinish_cases (s : State) :
    (outFull s = true ∧ execFinish s = .next s) ∨
    (outFull s = false ∧ execFinish s = .next (retire 1 (pushOut s.acc { s with st := .finished }))) := by
  unfold execFinish
  split
  · exact .inl ⟨‹_›, rfl⟩
  · exact .inr ⟨by simpa using ‹¬outFull s = true›, rfl⟩

/-- What a retired command did to the state. -/
inductive Retired (i : Instr) (s : State) : State → Prop where
  /-- `NEW` or `NEWK`: the upper key is clear unless the algorithm is `HWY`. -/
  | start (k : Quad) (a : Alg) (hi : startsCombiner i = true) (hk : a ≠ .hwy → k.x2 = 0 ∧ k.x3 = 0) :
      Retired i s (retire (instrWords i) (loadCombiner k a s))
  /-- `WRITE`. -/
  | write (d : Word) (hi : isWrite i = true) :
      Retired i s (retire (instrWords i) (clobberLanes { s with acc := combine s.acc d, st := .opened }))
  /-- `FINISH`. -/
  | finish (hi : isFinish i = true) (hr : outFull s = false) :
      Retired i s (retire (instrWords i) (pushOut s.acc { s with st := .finished }))
  /-- A `DIGEST` of the scalar engine. -/
  | digest (d : Word) (hi : isScalarDigest i = true) (hr : outFull s = false) :
      Retired i s (retire (instrWords i) (pushOut d (clobberLanes s)))

/-- Everything `exec` can answer with a next state: a hold, a fault entry, or a retirement. -/
theorem exec_cases {i : Instr} {s t : State} (h : exec i s = .next t) :
    (t = s ∧ outFull s = true ∧ pushesResult i = true) ∨ (∃ c, t = raiseFault c s) ∨ Retired i s t := by
  have dig : ∀ {a b n k addr len}, digestCommand a b n k addr len s = .next t → isScalarDigest i = true →
      n = instrWords i → (t = s ∧ outFull s = true ∧ pushesResult i = true) ∨ (∃ c, t = raiseFault c s) ∨
        Retired i s t := by
    intro a b n k addr len h hi hn
    rcases digestCommand_cases a b n k addr len s with ⟨c, hc⟩ | hc | ⟨hf, hc⟩ | ⟨hf, d, hc⟩ <;> rw [hc] at h
    · exact .inr (.inl ⟨c, by simpa using h.symm⟩)
    · simp at h
    · exact .inl ⟨by simpa using h.symm, hf, by simp [pushesResult, hi]⟩
    · simp at h
      subst h hn
      exact .inr (.inr (.digest d hi hf))
  have absent : ∀ {a b n x}, selectEngine s.caps b = .absent x → digestCommand a b n [] 0 0 s = .next t →
      (t = s ∧ outFull s = true ∧ pushesResult i = true) ∨ (∃ c, t = raiseFault c s) ∨ Retired i s t := by
    intro a b n x hb h
    simp only [digestCommand, digestMessage, hb, Host.Outcome.next.injEq] at h
    exact .inr (.inl ⟨_, h.symm⟩)
  have start : ∀ {k a n}, Host.Outcome.next (ρ := Refusal) (φ := Fault) (retire n (loadCombiner k a s)) = .next t →
      startsCombiner i = true → n = instrWords i → (a ≠ .hwy → k.x2 = 0 ∧ k.x3 = 0) →
      (t = s ∧ outFull s = true ∧ pushesResult i = true) ∨ (∃ c, t = raiseFault c s) ∨ Retired i s t := by
    intro k a n h hi hn hk
    simp only [Host.Outcome.next.injEq] at h
    subst h hn
    exact .inr (.inr (.start k a hi hk))
  cases i with
  | newHwy => exact start h rfl rfl (by simp)
  | newSip24 => exact start h rfl rfl (by simp)
  | newSip13 => exact start h rfl rfl (by simp)
  | newkHwy => exact start h rfl rfl (by simp)
  | newkSip24 => exact start h rfl rfl (by simp)
  | newkSip13 => exact start h rfl rfl (by simp)
  | write addr len =>
    rcases execWrite_cases addr len s with ⟨c, hc⟩ | hc | ⟨d, hc⟩ <;> simp only [exec, hc] at h
    · exact .inr (.inl ⟨c, by simpa using h.symm⟩)
    · simp at h
    · simp at h
      subst h
      exact .inr (.inr (.write d rfl))
  | finish =>
    rcases execFinish_cases s with ⟨hf, hc⟩ | ⟨hf, hc⟩ <;> simp only [exec, hc, Host.Outcome.next.injEq] at h
    · exact .inl ⟨h.symm, hf, rfl⟩
    · subst h
      exact .inr (.inr (.finish rfl hf))
  | digestHwy => exact dig h rfl rfl
  | digestSip24 => exact dig h rfl rfl
  | digestSip13 => exact dig h rfl rfl
  | digestHwyScalar => exact dig h rfl rfl
  | digestSip24Scalar => exact dig h rfl rfl
  | digestSip13Scalar => exact dig h rfl rfl
  | digestHwySse41 => exact absent (a := .hwy) (n := 7) (selectEngine_sse41 _) h
  | digestSip24Sse41 => exact absent (a := .sip24) (n := 5) (selectEngine_sse41 _) h
  | digestSip13Sse41 => exact absent (a := .sip13) (n := 5) (selectEngine_sse41 _) h
  | digestHwyAvx2 => exact absent (a := .hwy) (n := 7) (selectEngine_avx2 _) h
  | digestSip24Avx2 => exact absent (a := .sip24) (n := 5) (selectEngine_avx2 _) h
  | digestSip13Avx2 => exact absent (a := .sip13) (n := 5) (selectEngine_avx2 _) h

/-- No command stops with a fault of the model. -/
theorem exec_ne_fault (i : Instr) (s : State) (f : Fault) : exec i s ≠ .fault f := by
  have dig : ∀ a b n k addr len, digestCommand a b n k addr len s ≠ .fault f := by
    intro a b n k addr len h
    rcases digestCommand_cases a b n k addr len s with ⟨c, hc⟩ | hc | ⟨_, hc⟩ | ⟨_, d, hc⟩ <;> simp [hc] at h
  cases i with
  | write addr len =>
    intro h
    rcases execWrite_cases addr len s with ⟨c, hc⟩ | hc | ⟨d, hc⟩ <;> simp [exec, hc] at h
  | finish =>
    intro h
    rcases execFinish_cases s with ⟨_, hc⟩ | ⟨_, hc⟩ <;> simp [exec, hc] at h
  | newHwy => nofun
  | newSip24 => nofun
  | newSip13 => nofun
  | newkHwy => nofun
  | newkSip24 => nofun
  | newkSip13 => nofun
  | digestHwy => exact dig .hwy .dispatch 7 _ _ _
  | digestSip24 => exact dig .sip24 .dispatch 5 _ _ _
  | digestSip13 => exact dig .sip13 .dispatch 5 _ _ _
  | digestHwyScalar => exact dig .hwy .scalar 7 _ _ _
  | digestSip24Scalar => exact dig .sip24 .scalar 5 _ _ _
  | digestSip13Scalar => exact dig .sip13 .scalar 5 _ _ _
  | digestHwySse41 => exact dig .hwy .sse41 7 [] 0 0
  | digestSip24Sse41 => exact dig .sip24 .sse41 5 [] 0 0
  | digestSip13Sse41 => exact dig .sip13 .sse41 5 [] 0 0
  | digestHwyAvx2 => exact dig .hwy .avx2 7 [] 0 0
  | digestSip24Avx2 => exact dig .sip24 .avx2 5 [] 0 0
  | digestSip13Avx2 => exact dig .sip13 .avx2 5 [] 0 0

/-- The decoder finds an empty queue only in an empty queue. -/
theorem decode_eq_empty_iff {q : List Word} : decode q = .empty ↔ q = [] := by
  cases q with
  | nil => exact ⟨fun _ => rfl, fun _ => rfl⟩
  | cons w ws =>
    refine ⟨fun h => ?_, nofun⟩
    simp only [decode] at h
    split at h
    · cases h
    · split at h <;> cases h

/-- Everything `step` can answer with a next state, from a block without a fault. -/
theorem step_cases {s t : State} (h : step s = .next t) :
    s.err = false ∧
      ((t = s ∧ (s.cmdq = [] ∨ decode s.cmdq = .incomplete)) ∨ (∃ c, t = raiseFault c s) ∨
        ∃ i, decode s.cmdq = .command i ∧ exec i s = .next t) := by
  unfold step sequencerStep at h
  split at h
  · simp at h
  · refine ⟨by simpa using ‹¬s.err = true›, ?_⟩
    split at h
    · exact .inl ⟨by simpa using h.symm, .inl (decode_eq_empty_iff.1 ‹_›)⟩
    · exact .inl ⟨by simpa using h.symm, .inr ‹_›⟩
    · exact .inr (.inl ⟨_, by simpa using h.symm⟩)
    · exact .inr (.inr ⟨_, ‹_›, h⟩)

theorem step_of_decode {s : State} {i : Instr} (he : s.err = false) (hd : decode s.cmdq = .command i) :
    step s = exec i s := by
  simp [step, sequencerStep, he, hd]

end Sys2Proof.Machine
end

