-- ==== Sys2Proof/Laws/HostPort.lean ====
section
/-! SUPPORT. What the host's moves can do: the queue as commands, the possible pushes, submissions and writes. -/

namespace Sys2Proof.Machine

/-- A queue that starts with a whole command splits into it and the rest's split. -/
theorem splitQueue_of_decode {n : Nat} {i : Instr} {q : List Word} (hd : decode (encode i ++ q) = .command i) :
    splitQueue (n + 1) (encode i ++ q) = (i :: (splitQueue n q).1, (splitQueue n q).2) := by
  simp [splitQueue, hd, instrWords]

/-- Whole commands at the head of a queue are what it splits into first, given that the decoder reads each from its
words. -/
theorem splitQueue_flatMap (hd : ∀ i q, decode (encode i ++ q) = .command i) (is : List Instr) (n : Nat)
    (rest : List Word) :
    splitQueue (is.length + n) (is.flatMap encode ++ rest) =
      (is ++ (splitQueue n rest).1, (splitQueue n rest).2) := by
  induction is with
  | nil => simp
  | cons i is ih =>
    rw [List.flatMap_cons, List.append_assoc, List.length_cons, Nat.add_right_comm, splitQueue_of_decode (hd i _), ih]
    rfl

/-- What a possible `hostPush` does. -/
theorem hostPush_eq_some_iff {w : Word} {s t : State} :
    hostPush w s = some t ↔ cmdqLacksRoom s 1 = false ∧ t = { s with cmdq := s.cmdq ++ [w] } := by
  unfold hostPush
  cases cmdqLacksRoom s 1 <;> simp [eq_comm (a := t)]

/-- What a possible `hostSubmit` does. -/
theorem hostSubmit_eq_some_iff {i : Instr} {s t : State} :
    hostSubmit i s = some t ↔
      midCommand s = false ∧ cmdqLacksRoom s (instrWords i) = false ∧ t = { s with cmdq := s.cmdq ++ encode i } := by
  unfold hostSubmit
  cases midCommand s <;> cases cmdqLacksRoom s (instrWords i) <;> simp [eq_comm (a := t)]

/-- What a possible `hostWriteByte` does. -/
theorem hostWriteByte_eq_some_iff {a : Word} {b : Byte} {s t : State} :
    hostWriteByte a b s = some t ↔ addrPending s a.toNat = false ∧ t = { s with msg := s.msg.write a.toNat b } := by
  unfold hostWriteByte
  cases addrPending s a.toNat <;> simp [eq_comm (a := t)]

/-- An address in the named range of a pending command is pending. -/
theorem addrPending_of_mem {s : State} {i : Instr} {r : Word × Word} {a : Nat} (hi : i ∈ pendingCommands s)
    (hr : namedRange i = some r) (h1 : r.1.toNat ≤ a) (h2 : a < r.1.toNat + r.2.toNat) : addrPending s a = true := by
  unfold addrPending
  rw [List.any_eq_true]
  exact ⟨i, hi, by simp [hr, inRange, h1, h2]⟩

end Sys2Proof.Machine
end

