-- ==== Sys2Proof/Laws/PerInstr.lean ====
section
/-! SUPPORT. One statement per instruction about its syntax: its header passes 30_encoding.md R68, is the first word
of its encoding, and fixes the encoding's length (R66). -/

/-- The header of an instruction is well-formed, is the first word of its encoding, and decodes to an operation whose
length is the encoding's. -/
def Sys2Proof.Laws.HeaderIsLegal.Statement (i : Sys2Proof.Instr) : Prop :=
  i.wf = true ∧ (Sys2Proof.encode i).head? = some (Sys2Proof.headerWord i.header) ∧
    ∃ o, Sys2Proof.decodeHeader (Sys2Proof.headerWord i.header) = .ok o ∧ Sys2Proof.opWords o = Sys2Proof.instrWords i

namespace Sys2Proof.Laws.HeaderIsLegal

/-- The statement from facts about the closed header alone. -/
theorem of_header {i : Instr} (h : Header) (o : Op) (hh : i.header = h) (hw : h.wf = true)
    (he : (encode i).head? = some (headerWord h)) (hd : decodeHeader (headerWord h) = .ok o)
    (hl : opWords o = instrWords i) : Statement i := by
  subst hh
  exact ⟨hw, he, o, hd, hl⟩

theorem newHwy : Statement .newHwy :=
  of_header ⟨1, 0, 0, 0⟩ (.new .hwy) rfl (by decide) rfl (by decide) rfl

theorem newSip24 : Statement .newSip24 :=
  of_header ⟨1, 1, 0, 0⟩ (.new .sip24) rfl (by decide) rfl (by decide) rfl

theorem newSip13 : Statement .newSip13 :=
  of_header ⟨1, 2, 0, 0⟩ (.new .sip13) rfl (by decide) rfl (by decide) rfl

theorem newkHwy (k0 k1 k2 k3 : Word) : Statement (.newkHwy k0 k1 k2 k3) :=
  of_header ⟨2, 0, 0, 0⟩ (.newk .hwy) rfl (by decide) rfl (by decide) rfl

theorem newkSip24 (k0 k1 : Word) : Statement (.newkSip24 k0 k1) :=
  of_header ⟨2, 1, 0, 0⟩ (.newk .sip24) rfl (by decide) rfl (by decide) rfl

theorem newkSip13 (k0 k1 : Word) : Statement (.newkSip13 k0 k1) :=
  of_header ⟨2, 2, 0, 0⟩ (.newk .sip13) rfl (by decide) rfl (by decide) rfl

theorem write (addr len : Word) : Statement (.write addr len) :=
  of_header ⟨3, 0, 0, 0⟩ .write rfl (by decide) rfl (by decide) rfl

theorem finish : Statement .finish :=
  of_header ⟨4, 0, 0, 0⟩ .finish rfl (by decide) rfl (by decide) rfl

theorem digestHwy (k0 k1 k2 k3 addr len : Word) : Statement (.digestHwy k0 k1 k2 k3 addr len) :=
  of_header ⟨5, 0, 0, 0⟩ (.digest .hwy .dispatch) rfl (by decide) rfl (by decide) rfl

theorem digestSip24 (k0 k1 addr len : Word) : Statement (.digestSip24 k0 k1 addr len) :=
  of_header ⟨5, 1, 0, 0⟩ (.digest .sip24 .dispatch) rfl (by decide) rfl (by decide) rfl

theorem digestSip13 (k0 k1 addr len : Word) : Statement (.digestSip13 k0 k1 addr len) :=
  of_header ⟨5, 2, 0, 0⟩ (.digest .sip13 .dispatch) rfl (by decide) rfl (by decide) rfl

theorem digestHwyScalar (k0 k1 k2 k3 addr len : Word) : Statement (.digestHwyScalar k0 k1 k2 k3 addr len) :=
  of_header ⟨5, 0, 1, 0⟩ (.digest .hwy .scalar) rfl (by decide) rfl (by decide) rfl

theorem digestSip24Scalar (k0 k1 addr len : Word) : Statement (.digestSip24Scalar k0 k1 addr len) :=
  of_header ⟨5, 1, 1, 0⟩ (.digest .sip24 .scalar) rfl (by decide) rfl (by decide) rfl

theorem digestSip13Scalar (k0 k1 addr len : Word) : Statement (.digestSip13Scalar k0 k1 addr len) :=
  of_header ⟨5, 2, 1, 0⟩ (.digest .sip13 .scalar) rfl (by decide) rfl (by decide) rfl

theorem digestHwySse41 (k0 k1 k2 k3 addr len : Word) : Statement (.digestHwySse41 k0 k1 k2 k3 addr len) :=
  of_header ⟨5, 0, 2, 0⟩ (.digest .hwy .sse41) rfl (by decide) rfl (by decide) rfl

theorem digestSip24Sse41 (k0 k1 addr len : Word) : Statement (.digestSip24Sse41 k0 k1 addr len) :=
  of_header ⟨5, 1, 2, 0⟩ (.digest .sip24 .sse41) rfl (by decide) rfl (by decide) rfl

theorem digestSip13Sse41 (k0 k1 addr len : Word) : Statement (.digestSip13Sse41 k0 k1 addr len) :=
  of_header ⟨5, 2, 2, 0⟩ (.digest .sip13 .sse41) rfl (by decide) rfl (by decide) rfl

theorem digestHwyAvx2 (k0 k1 k2 k3 addr len : Word) : Statement (.digestHwyAvx2 k0 k1 k2 k3 addr len) :=
  of_header ⟨5, 0, 3, 0⟩ (.digest .hwy .avx2) rfl (by decide) rfl (by decide) rfl

theorem digestSip24Avx2 (k0 k1 addr len : Word) : Statement (.digestSip24Avx2 k0 k1 addr len) :=
  of_header ⟨5, 1, 3, 0⟩ (.digest .sip24 .avx2) rfl (by decide) rfl (by decide) rfl

theorem digestSip13Avx2 (k0 k1 addr len : Word) : Statement (.digestSip13Avx2 k0 k1 addr len) :=
  of_header ⟨5, 2, 3, 0⟩ (.digest .sip13 .avx2) rfl (by decide) rfl (by decide) rfl

end Sys2Proof.Laws.HeaderIsLegal
end

