-- ==== Sys2Proof/Tests/Slice0.lean ====
section
/-! SUPPORT. Tests, each expected value from spec/ (30_encoding.md R67, R74; the examples of the rules;
95_test_vectors.md), and one witness for the hypotheses of each statement that has some. -/

namespace Sys2Proof.Tests

-- One theorem at a time: elaborating them all at once asks for more memory than the checks allow.
set_option Elab.async false

open Sys2Proof Sys2Proof.Machine

/-! ### States for the tests -/

/-- `"foo"` at 0x1000. -/
def foo : Memory := [(0x1000, 0x66), (0x1001, 0x6f), (0x1002, 0x6f)]

/-- The seven bytes of the regression scenario at 0x1000. -/
def seven : Memory :=
  [(0x1000, 0x0c), (0x1001, 0x17), (0x1002, 0xea), (0x1003, 0x7b), (0x1004, 0x7b), (0x1005, 0x02), (0x1006, 0x04)]

/-- After reset, with these words in `CMDQ`. -/
def withQ (q : List Word) : State := { State.reset with cmdq := q }

/-- After reset, with this message memory. -/
def withM (m : Memory) : State := { State.reset with msg := m }

/-- `MsgReadable(a) = (a < 0x8000)`, and depths of 7 and 1. -/
def lowParams : Params :=
  { regions := [⟨0x8000, 2 ^ 64 - 0x8000, .unreadable⟩], cmdqDepth := some 7, outqDepth := some 1, engine := .reference }

/-- A machine with those parameters. -/
def low : State := { State.reset with params := lowParams }

/-- The same with a full `OUT`. -/
def lowFull : State := { low with out := [9] }

/-- One location with read side effects, at 0x9000. -/
def sideParams : Params := { Params.default with regions := [⟨0x9000, 1, .sideEffect⟩] }

/-- A machine with it. -/
def side : State := { State.reset with params := sideParams }

/-- The state of the example of R163. -/
def dirty : State := { State.reset with acc := 0x1234, st := .finished, alg := .sip24, key := ⟨1, 2, 0, 0⟩ }

/-- A halted machine. -/
def faulted : State := { State.reset with err := true, cause := 3, cix := 5, fcix := 5 }

/-- The `n` bytes 00, 01, 02, ... -/
def ramp (n : Nat) : List Byte := (List.range n).map (BitVec.ofNat 8)

/-- The key of 95_test_vectors.md section 4. -/
def sk : List Word := [0x0706050403020100, 0x0f0e0d0c0b0a0908]

/-- The key of 95_test_vectors.md section 5. -/
def tk : List Word := [0x0706050403020100, 0x0f0e0d0c0b0a0908, 0x1716151413121110, 0x1f1e1d1c1b1a1918]

/-- The next state of a command's meaning, seen through `f`. -/
def after {α : Type} (f : State → α) (i : Instr) (s : State) : Option α := (nextOf (exec i s)).map f

/-- The state after `n` steps, none if a step stops. -/
def steps : Nat → State → Option State
  | 0, s => some s
  | n + 1, s => (nextOf (step s)).bind (steps n)

/-! ### WellFormed smoke tests: one ill-formed header for each check of R68 -/

theorem test_wf_good_header : (⟨5, 2, 3, 0⟩ : Header).wf = true := by decide
theorem test_wf_bad_opc_zero : (⟨0, 0, 0, 0⟩ : Header).opcOk = false ∧ (⟨0, 0, 0, 0⟩ : Header).wf = false := by decide
theorem test_wf_bad_opc_six : (⟨6, 0, 0, 0⟩ : Header).opcOk = false ∧ (⟨6, 0, 0, 0⟩ : Header).wf = false := by decide
theorem test_wf_bad_rsv : (⟨1, 0, 0, 1⟩ : Header).rsvOk = false ∧ (⟨1, 0, 0, 1⟩ : Header).wf = false := by decide
theorem test_wf_bad_alg : (⟨5, 3, 0, 0⟩ : Header).algOk = false ∧ (⟨5, 3, 0, 0⟩ : Header).wf = false := by decide
theorem test_wf_bad_alg_unused :
    (⟨3, 1, 0, 0⟩ : Header).algUnusedOk = false ∧ (⟨3, 1, 0, 0⟩ : Header).wf = false := by decide
theorem test_wf_bad_bk_unused :
    (⟨4, 0, 1, 0⟩ : Header).bkUnusedOk = false ∧ (⟨4, 0, 1, 0⟩ : Header).wf = false := by decide
theorem test_wf_params : Params.default.wf = true ∧ lowParams.wf = true ∧ sideParams.wf = false ∧
    ({ Params.default with cmdqDepth := some 6 } : Params).wf = false ∧
    ({ Params.default with outqDepth := some 0 } : Params).wf = false := by decide

/-! ### Decode: a word of every constructor, written out from R67 -/

theorem test_decode_new : decode [0x001] = .command .newHwy ∧ decode [0x101] = .command .newSip24 ∧
    decode [0x201] = .command .newSip13 := by decide
theorem test_decode_newk : decode [0x002, 1, 2, 3, 4] = .command (.newkHwy 1 2 3 4) ∧
    decode [0x102, 1, 2] = .command (.newkSip24 1 2) ∧ decode [0x202, 1, 2] = .command (.newkSip13 1 2) := by decide
theorem test_decode_write_finish : decode [0x003, 0x1000, 7] = .command (.write 0x1000 7) ∧
    decode [0x004] = .command .finish := by decide
theorem test_decode_digest : decode [0x005, 1, 2, 3, 4, 5, 6] = .command (.digestHwy 1 2 3 4 5 6) ∧
    decode [0x105, 1, 2, 5, 6] = .command (.digestSip24 1 2 5 6) ∧
    decode [0x205, 1, 2, 0x1000, 7] = .command (.digestSip13 1 2 0x1000 7) := by decide
theorem test_decode_scalar :
    decode [0x405, 1, 2, 3, 4, 0x1000, 7] = .command (.digestHwyScalar 1 2 3 4 0x1000 7) ∧
    decode [0x505, 1, 2, 5, 6] = .command (.digestSip24Scalar 1 2 5 6) ∧
    decode [0x605, 1, 2, 5, 6] = .command (.digestSip13Scalar 1 2 5 6) := by decide
theorem test_decode_sse41 : decode [0x805, 1, 2, 3, 4, 5, 6] = .command (.digestHwySse41 1 2 3 4 5 6) ∧
    decode [0x905, 1, 2, 5, 6] = .command (.digestSip24Sse41 1 2 5 6) ∧
    decode [0xA05, 1, 2, 5, 6] = .command (.digestSip13Sse41 1 2 5 6) := by decide
theorem test_decode_avx2 : decode [0xC05, 1, 2, 3, 4, 5, 6] = .command (.digestHwyAvx2 1 2 3 4 5 6) ∧
    decode [0xD05, 1, 2, 5, 6] = .command (.digestSip24Avx2 1 2 5 6) ∧
    decode [0xE05, 1, 2, 0x1000, 7] = .command (.digestSip13Avx2 1 2 0x1000 7) := by decide
/-- The illegal headers of R74. -/
theorem test_decode_illegal :
    [0x0, 0x6, 0x1006].all (fun h => decode [h] == .illegal .illegalOpcode) = true ∧
    [0x1001, 0x301, 0x103, 0x404, 0x401, 0x305, 0xF05].all (fun h => decode [h] == .illegal .reservedField) = true := by
  decide
/-- R71: an empty queue, a missing operand word, and a header that decides its fault alone. -/
theorem test_decode_holds : decode [] = .empty ∧ decode [0x3, 0x1000] = .incomplete ∧
    decode [0x805] = .command (.digestHwySse41 0 0 0 0 0 0) := by decide
theorem test_table_word :
    decodeTableWord 192 (0x3 + 0x1000 * 2 ^ 64 + 7 * 2 ^ 128) = some (.write 0x1000 7) ∧
    decodeTableWord 64 0x6 = none := by decide
theorem test_fetch_word : (State.reset.withFetchWord 64 0x4).cmdq = [0x4] ∧
    (faulted.withFetchWord 64 0x4).err = false := by decide

/-! ### The combiner commands -/

/-- The example of R163. -/
theorem test_new_hwy : after (fun t => (t.acc, t.st, t.alg, t.key)) .newHwy dirty =
    some (0, .opened, .hwy, ⟨0, 0, 0, 0⟩) := by decide
/-- The examples of R164 and R165. -/
theorem test_new_sip : after (fun t => (t.status, t.cix)) .newSip24 State.reset = some (0x40, 1) ∧
    after (fun t => (t.status, t.cix)) .newSip13 State.reset = some (0x80, 1) := by decide
/-- The example of R166. -/
theorem test_newk_hwy : after (fun t => (t.key, t.acc)) (.newkHwy 1 2 3 4) dirty = some (⟨1, 2, 3, 4⟩, 0) := by decide
/-- The example of R167. -/
theorem test_newk_sip24 :
    after (fun t => (t.key, t.alg)) (.newkSip24 1 2) { dirty with key := ⟨9, 9, 9, 9⟩ } =
      some (⟨1, 2, 0, 0⟩, .sip24) := by decide
/-- The example of R168. -/
theorem test_newk_sip13 : after (fun t => (t.key, t.status)) (.newkSip13 1 2) State.reset =
    some (⟨1, 2, 0, 0⟩, 0x80) := by decide
/-- The example of R169 (program P1). -/
theorem test_write_foo : after (fun t => t.acc) (.write 0x1000 3) (withM foo) = some 0x8db1f26ffedd3a0d := by
  decide +kernel
/-- Program P4's legal variant: a range that ends at 2^64, from `ST` = 1 (R171), under `SIP13`. -/
theorem test_write_top : after (fun t => (t.acc, t.st)) (.write 0xfffffffffffffffd 3)
      { State.reset with
        alg := .sip13, st := .finished, acc := 0x089456668113f010,
        msg := [(0xfffffffffffffffd, 0x66), (0xfffffffffffffffe, 0x6f), (0xffffffffffffffff, 0x6f)] } =
    some (0x275b53c6e7470004, .opened) := by decide +kernel
/-- The example of R170. -/
theorem test_finish_reset : after (fun t => (t.out, t.status)) .finish State.reset = some ([0], 0x20) := by decide
/-- A full `OUT` holds (R170, R235). -/
theorem test_finish_holds : nextOf (exec .finish lowFull) = some lowFull := by decide
/-- 95_test_vectors.md table 3a. -/
theorem test_combine : combine 0 0 = 0x9e3779b97f4a7c16 ∧ combine 0 0xffffffffffffffff = 0x9e3779b97f4a7c15 ∧
    combine 0xffffffffffffffff 0 = 0x21c8864680b5842a ∧ combine 1 0 = 0x9e3779b97f4a7c57 ∧
    combine 0x8000000000000000 0 = 0x3e3779b97f4a7c16 ∧
    combine 0x0123456789abcdef 0xfedcba9876543210 = 0xe70d1ae9cb56d08e ∧
    combine 3 0x61c8864680b583ea = 0xc3 ∧ combine 4 0x61c8864680b582e9 = 4 := by decide

/-! ### The DIGEST commands -/

/-- The example of R86. -/
theorem test_digest_hwy : after (fun t => (t.out, t.cix)) (.digestHwy 1 2 3 4 0x1000 7) (withM seven) =
    some ([0x5d6f07a74255f4ca], 1) := by decide +kernel
/-- 95_test_vectors.md section 2. -/
theorem test_digest_sip24 : after (fun t => t.out) (.digestSip24 1 2 0x1000 7) (withM seven) =
    some [0xdf0fef24af1b76db] := by decide +kernel
/-- The example of R88. -/
theorem test_digest_sip13 : after (fun t => t.out) (.digestSip13 1 2 0x1000 7) (withM seven) =
    some [0xeb0387288c13131d] := by decide +kernel
/-- The examples of R89, R90, R91. -/
theorem test_digest_scalar : after (fun t => t.out) (.digestHwyScalar 0 0 0 0 0 0) dirty = some [0x7035da75b9d54469] ∧
    after (fun t => t.out) (.digestSip24Scalar 0 0 0 0) dirty = some [0x1e924b9d737700d7] ∧
    after (fun t => t.out) (.digestSip13Scalar 0 0 0 0) dirty = some [0xd1fba762150c532c] := by decide +kernel
/-- The combiner is untouched (R85). -/
theorem test_digest_leaves_combiner :
    after (fun t => (t.key, t.acc, t.alg, t.st)) (.digestHwy 1 2 3 4 0x1000 7) dirty =
      some (dirty.key, dirty.acc, dirty.alg, dirty.st) := by decide
/-- The examples of R153 to R158. -/
theorem test_absent_engines :
    [Instr.digestHwySse41 1 2 3 4 5 6, .digestSip24Sse41 1 2 5 6, .digestSip13Sse41 1 2 5 6,
     .digestHwyAvx2 1 2 3 4 5 6, .digestSip24Avx2 1 2 5 6, .digestSip13Avx2 1 2 5 6].all (fun i =>
      after (fun t => (t.err, t.cause, t.fcix, t.cix, t.out)) i { State.reset with cix := 5 } ==
        some (true, 3, 5, 5, [])) = true := by decide

/-! ### The lane pipelines -/

/-- R112's examples, and the seed of R111. -/
theorem test_sip_round :
    sipRound ⟨1, 0, 0, 0⟩ = ⟨0x0000000100000000, 0x0000000000020001, 0x0000000100000000, 0x0000000100000000⟩ ∧
    sipRound (sipSeed 0x0706050403020100 0x0f0e0d0c0b0a0908) =
      ⟨0x6864848c93698c85, 0x41d43f143c94a7dc, 0xf3f94792d7121732, 0x5e52f75805987c12⟩ := by decide
/-- R114's example. -/
theorem test_sip_tail_word : sipTailWord [0x0c, 0x17, 0xea, 0x7b, 0x7b, 0x02, 0x04] = 0x0704027b7bea170c := by decide
/-- R133's examples. -/
theorem test_zip : zipOdd 0x0f0e0d0c0b0a0908 0x0706050403020100 = 0x070806090d0a040b ∧
    zipEven 0x0f0e0d0c0b0a0908 0x0706050403020100 = 0x000f010e05020c03 ∧
    zipOdd 0 0xffffffffffffffff = 0xff00ff000000ff00 ∧ zipEven 0 0xffffffffffffffff = 0xff00ff00ffff00ff := by decide
/-- R137's examples. -/
theorem test_rot32 : rot32 0x0123456789abcdef 0 = 0x0123456789abcdef ∧ rot32 0x8000000180000001 1 = 0x0000000300000003 ∧
    rot32 0x0123456789abcdef 7 = 0x91a2b380d5e6f7c4 ∧ rot32 0x0123456789abcdef 31 = 0x8091a2b3c4d5e6f7 := by decide
/-- R136's examples. -/
theorem test_packet :
    hwyPacket [0x0c, 0x17, 0xea, 0x7b, 0x7b, 0x02, 0x04] =
      [0x0c, 0x17, 0xea, 0x7b] ++ List.replicate 12 0 ++ [0x7b, 0x02, 0x04] ++ List.replicate 13 0 ∧
    hwyPacket (ramp 21) = ramp 20 ++ List.replicate 8 0 ++ [0x11, 0x12, 0x13, 0x14] := by decide
/-- R131's example. -/
theorem test_hwy_seed : (hwySeed ⟨1, 2, 3, 4⟩).v1 =
    ⟨0x3bd39e11cb0ef593, 0xc0acf16bb5f18a8c, 0xbe5466cc34e90c6c, 0x452821e238d01377⟩ := by decide
/-- Trace T3 after block 0 (R132). -/
theorem test_hwy_update :
    let s := hwyUpdate (hwySeed ⟨0x0706050403020100, 0x0f0e0d0c0b0a0908, 0x1716151413121110, 0x1f1e1d1c1b1a1918⟩)
      (laneWords (ramp 32))
    s.v0 = ⟨0xdf332ea141b5548f, 0x870ce55a162fae53, 0x8f05a3985ccd10fa, 0x57a00fab9814470a⟩ ∧
    s.m1 = ⟨0x2e6566d33ebf7ec7, 0xab9fcd28f9fc7250, 0x840637c436c58aac, 0xcd2e69dfaa4900b3⟩ := by decide +kernel
/-- 95_test_vectors.md 4b: no block, whole blocks, block and tail. -/
theorem test_sip_lengths : digest .reference .sip24 sk (ramp 1) = 0x74f839c593dc67fd ∧
    digest .reference .sip24 sk (ramp 16) = 0x3f2acc7f57c29bdb ∧
    digest .reference .sip13 sk (ramp 9) = 0x25a48eb36c063de4 := by decide +kernel
/-- 95_test_vectors.md 5b: each branch of the tail, and blocks. -/
theorem test_hwy_lengths : digest .reference .hwy tk (ramp 2) = 0xb8d0569ab0b53d62 ∧
    digest .reference .hwy tk (ramp 4) = 0xf205a46893007eda ∧
    digest .reference .hwy tk (ramp 16) = 0xcfab3489f97eb832 ∧
    digest .reference .hwy tk (ramp 65) = 0x4a36b315b88a8e62 := by decide +kernel

/-! ### Faults, memory, status (95_test_vectors.md section 7) -/

theorem test_vectors_header_faults :
    [(0x0, 0x03), (0x6, 0x03), (0x1006, 0x03), (0x1001, 0x05), (0x301, 0x05), (0x103, 0x05), (0x404, 0x05),
     (0x401, 0x05), (0x305, 0x05), (0xF05, 0x05), (0x805, 0x07)].all (fun r =>
      (nextOf (step (withQ [r.1]))).map (fun t => (t.status, t.cix, t.fcix, t.out, t.cmdq)) ==
        some (r.2, 0, 0, [], [r.1])) = true := by decide
theorem test_vectors_held : nextOf (step (withQ [0x3, 0x1000])) = some (withQ [0x3, 0x1000]) := by decide
theorem test_vectors_two_steps :
    (steps 2 (withQ [0x4, 0x4])).map (fun t => (t.status, t.cix, t.out, t.cmdq)) = some (0x20, 2, [0, 0], []) ∧
    (steps 2 (withQ [0x201, 0x4])).map (fun t => (t.status, t.cix, t.out, t.cmdq)) = some (0xa0, 2, [0], []) := by decide
theorem test_vectors_range_fault :
    (nextOf (step (withQ [0x3, 0xffffffffffffffff, 0x2]))).map (fun t => (t.status, t.cix, t.cmdq.length)) =
      some (0x09, 0, 3) ∧
    (nextOf (step (withQ [0x3, 0xffffffffffffffff, 0x0]))).map (fun t => (t.status, t.cix, t.cmdq.length)) =
      some (0x00, 1, 0) := by decide
theorem test_vectors_access_fault :
    (nextOf (step { low with cmdq := [0x3, 0x7fff, 0x2] })).map (fun t => (t.status, t.cix, t.cmdq.length)) =
      some (0x0b, 0, 3) := by decide
/-- A faulting command never waits for `OUT` (R198). -/
theorem test_fault_before_hold : after (fun t => (t.cause, t.out)) (.digestSip13 1 2 0x7fff 2) lowFull = some (5, [9]) ∧
    after (fun t => t.cause) (.digestSip13Avx2 1 2 0x7fff 2) lowFull = some 3 := by decide
theorem test_memory : Memory.read foo 0x1001 = 0x6f ∧ Memory.read foo 0x1003 = 0 ∧ Memory.wf foo = true ∧
    Memory.write foo 0x1001 0 = [(0x1000, 0x66), (0x1002, 0x6f)] ∧ Memory.write [] 5 0 = [] := by decide
theorem test_host : (hostPush 4 low).map (fun t => t.cmdq) = some [4] ∧
    hostPush 4 { low with cmdq := [1, 1, 1, 1, 1, 1, 1] } = none ∧
    hostWriteByte 0x1002 1 { withM foo with cmdq := [0x3, 0x1000, 3] } = none ∧
    (hostWriteByte 0x1003 1 { withM foo with cmdq := [0x3, 0x1000, 3] }).isSome = true ∧
    (hostPop { low with out := [7, 8] }).map (fun r => r.1) = some 7 := by decide

/-- R57: every pending command's range is kept, behind others and for an absent engine; a partly pushed one's is not. -/
theorem test_host_write_pending :
    hostWriteByte 0x1002 1 (withQ [0x4, 0x3, 0x2000, 1, 0x3, 0x1000, 3]) = none ∧
    hostWriteByte 0x1000 1 (withQ [0xC05, 1, 2, 3, 4, 0x1000, 1]) = none ∧
    hostWriteByte 0x1000 1 (withQ [0x905, 1, 2, 0x1000, 1]) = none ∧
    (hostWriteByte 0x1000 1 (withQ [0xC05, 1, 2, 3, 4, 0x1000])).isSome = true ∧
    (hostWriteByte 0x1000 1 (withQ [0x0, 0x3, 0x1000, 3])).isSome = true := by decide
/-- R214, R216: a whole command is not submitted among another command's words. -/
theorem test_host_submit : hostSubmit .finish (withQ [0x3]) = none ∧ hostSubmit .finish (withQ [0x4, 0x805]) = none ∧
    (hostSubmit .finish (withQ [0x3, 0, 0])).map (fun t => t.cmdq) = some [0x3, 0, 0, 0x4] ∧
    (hostSubmit .finish (withQ [0x6])).isSome = true := by decide

/-! ### Witnesses: states and operands that meet the hypotheses of the statements -/

/-- Every range that does not wrap is legal when nothing is listed in the address map. -/
theorem legal_default {addr len : Word} (h : addr.toNat + len.toNat ≤ 2 ^ 64) : MessageLegal Params.default addr len :=
  .inr ⟨h, fun _ _ _ => by simp [msgReadable, msgSideEffect, Params.default]⟩

/-- `"foo"` below the unreadable region, and one byte at its edge. -/
theorem legal_low : MessageLegal lowParams 0x1000 3 ∧ MessageLegal lowParams 0x7fff 1 := by
  constructor <;> refine .inr ⟨by decide, fun a h1 h2 => ?_⟩ <;>
    · simp only [BitVec.reduceToNat] at h1 h2
      constructor
      · simp [msgReadable, lowParams, regionHas]; omega
      · simp [msgSideEffect, lowParams]

theorem witness_DecodeEncodeRoundTrip :
    [Instr.newHwy, .newkSip24 1 2, .write 3 4].flatMap encode = [0x1, 0x102, 1, 2, 0x3, 3, 4] := by decide
theorem witness_DecodedWordsAreTheEncoding :
    decode [0xC05, 1, 2, 3, 4, 5, 6, 7] = .command (.digestHwyAvx2 1 2 3 4 5 6) ∧
      instrWords (.digestHwyAvx2 1 2 3 4 5 6) ≤ 8 ∧
      decode [0x4] = .command .finish ∧ instrWords .finish ≤ 1 := by decide
theorem witness_IllegalHeadersFault :
    (withQ [0x1006]).err = false ∧ hdrOpc 0x1006 = 6 ∧ hdrOpc 0 = 0 ∧
      hdrOpc 0x1001 = 1 ∧ hdrRsv 0x1001 = 1 ∧ hdrOpc 0x305 = 5 ∧ hdrAlg 0x305 = 3 ∧
      hdrOpc 0x103 = 3 ∧ hdrAlg 0x103 = 1 ∧ hdrOpc 0x404 = 4 ∧ hdrBk 0x404 = 1 := by decide
theorem witness_StepRunsDecodedInstruction :
    (withQ [0x3, 0, 0, 0x4]).err = false ∧ decode (withQ [0x3, 0, 0, 0x4]).cmdq = .command (.write 0 0) := by decide
theorem witness_HoldsChangeNothing_empty_and_incomplete :
    (withQ []).err = false ∧ (withQ []).cmdq = [] ∧ namesAbsentEngine (.write 5 6) = false ∧
      (withQ [0x3, 5]).cmdq = (encode (.write 5 6)).take 2 ∧ 2 < instrWords (.write 5 6) ∧
      (withQ [0x3]).cmdq = (encode (.write 5 6)).take 1 := by decide
theorem witness_documented :
    Documented lowParams (.digestSip13 1 2 0x7fff 1) ∧ Documented lowParams .finish ∧
      Documented Params.default (.write 0xffffffffffffffff 1) ∧ Documented Params.default (.write 7 0) := by
  refine ⟨⟨rfl, ?_⟩, ⟨rfl, ?_⟩, ⟨rfl, ?_⟩, ⟨rfl, ?_⟩⟩ <;> intro a l h <;> cases h
  · exact legal_low.2
  · exact legal_default (by decide)
  · exact .inl rfl
theorem witness_HoldsChangeNothing_full :
    Documented lowFull.params (.digestSip13 1 2 0x7fff 1) ∧ pushesResult (.digestSip13 1 2 0x7fff 1) = true ∧
      ¬ OutHasRoom lowFull :=
  ⟨witness_documented.1, rfl, fun h => absurd (h 1 rfl) (by decide)⟩
theorem witness_HaltedBlockHasNoStep : faulted.err = true := by decide
theorem witness_EveryStepHoldsFaultsOrRetires :
    step (withQ [0x4]) = .next { withQ [] with out := [0], st := .finished, cix := 1 } ∧
      step (withQ []) = .next (withQ []) ∧ step (withQ [0x3]) = .next (withQ [0x3]) ∧
      step { lowFull with cmdq := [0x4] } = .next { lowFull with cmdq := [0x4] } ∧
      step (withQ [0]) = .next (withFault 1 (withQ [0])) := ⟨rfl, rfl, rfl, rfl, rfl⟩
theorem witness_WriteFoldsDigest :
    MessageLegal State.reset.params 0xffffffffffffffff 1 ∧ MessageLegal State.reset.params 5 0 ∧
      MessageLegal State.reset.params 0 0xffffffffffffffff ∧
      2 ^ 64 < (0xffffffffffffffff : Word).toNat + (2 : Word).toNat ∧
      (0x7fff : Word).toNat + (2 : Word).toNat ≤ 2 ^ 64 ∧ msgReadable low.params 0x8000 = false :=
  ⟨legal_default (by decide), .inl rfl, legal_default (by decide), by decide, by decide, by decide⟩
theorem witness_FinishPushesAccumulator : OutHasRoom low ∧ OutHasRoom State.reset :=
  ⟨fun n h => by cases h; decide, fun n h => by cases h⟩
theorem witness_DispatchedDigestPushes : MessageLegal low.params 0x7fff 1 ∧ OutHasRoom low :=
  ⟨legal_low.2, witness_FinishPushesAccumulator.1⟩
theorem witness_ScalarDigestPushes : MessageLegal low.params 0x1000 3 ∧ OutHasRoom low :=
  ⟨legal_low.1, witness_FinishPushesAccumulator.1⟩
theorem witness_WritesFoldIntoAccumulator :
    (∀ i ∈ [Instr.write 0 0, .finish, .digestSip13 1 2 0 0, .write 5 0],
      (isWrite i || isFinish i || isScalarDigest i) = true) ∧
    (withM foo).params.outqDepth = none ∧ (withM foo).err = false ∧
    ∃ t, execAll [.write 0 0, .finish, .digestSip13 1 2 0 0, .write 5 0] (withM foo) = .next t ∧ t.err = false :=
  ⟨by decide, rfl, rfl, _, rfl, rfl⟩
theorem witness_FinishIsIdempotent :
    (∀ i ∈ [Instr.digestSip13 1 2 0 0], isScalarDigest i = true) ∧ OutHasRoom State.reset ∧
    ∃ s1 s2 s3, OutHasRoom s2 ∧ exec .finish State.reset = .next s1 ∧
      execAll [.digestSip13 1 2 0 0] s1 = .next s2 ∧ exec .finish s2 = .next s3 :=
  ⟨by decide, witness_FinishPushesAccumulator.2, _, _, _, fun n h => (by cases h), rfl, rfl, rfl⟩
theorem witness_StGatesNothing :
    (∃ t, exec (.write 0 0) dirty = .next t ∧ t.cix = dirty.cix + 1) ∧
    (∃ t, exec .finish dirty = .next t ∧ t.cix = dirty.cix + 1) ∧
    (∃ t, exec .newHwy dirty = .next t ∧ t.cix = dirty.cix + 1) ∧
    (∃ t, exec (.digestSip24 1 2 0 0) dirty = .next t ∧ t.cix = dirty.cix + 1) :=
  ⟨⟨_, rfl, rfl⟩, ⟨_, rfl, rfl⟩, ⟨_, rfl, rfl⟩, ⟨_, rfl, rfl⟩⟩
theorem witness_AbsentEngineCommandsFault :
    namesAbsentEngine (.digestSip24Avx2 1 2 3 4) = true ∧ (withQ [0xD05]).err = false ∧
      (0xD05 : Word) ∈ ([0x805, 0x905, 0xA05, 0xC05, 0xD05, 0xE05] : List Word) := by decide
theorem witness_DigestIgnoresCombiner : isScalarDigest (.digestHwyScalar 1 2 3 4 0x1000 3) = true := by decide
theorem witness_MemReadChecksThenReads :
    (2 ^ 64 < (0xffffffffffffffff : Word).toNat + (2 : Word).toNat) ∧
    ((0x7fff : Word).toNat + (2 : Word).toNat ≤ 2 ^ 64 ∧ 0x7fff ≤ 0x8000 ∧ 0x8000 < 0x7fff + 2 ∧
      msgReadable low.params 0x8000 = false) ∧
    MessageLegal low.params 0x7fff 1 := ⟨by decide, by decide, legal_low.2⟩
theorem witness_WrappingRangeFaults :
    messageOperand (.digestHwy 1 2 3 4 0xffffffffffffffff 2) = some (0xffffffffffffffff, 2) ∧
      2 ^ 64 < (0xffffffffffffffff : Word).toNat + (2 : Word).toNat := by decide
theorem witness_UnreadableRangeFaults :
    messageOperand (.write 0x7fff 2) = some (0x7fff, 2) ∧ (0x7fff : Word).toNat + (2 : Word).toNat ≤ 2 ^ 64 ∧
      msgReadable low.params 0x8000 = false := by decide
/-- A range that starts at the last address, inside the unreadable region, does not wrap. -/
theorem witness_UnreadableRangeFaults_top :
    messageOperand (.write 0xffffffffffffffff 1) = some (0xffffffffffffffff, 1) ∧
      (0xffffffffffffffff : Word).toNat + (1 : Word).toNat ≤ 2 ^ 64 ∧
      msgReadable low.params (0xffffffffffffffff : Word).toNat = false := by decide
theorem witness_SideEffectMessageRefused :
    messageOperand (.write 0x9000 1) = some (0x9000, 1) ∧ (0x9000 : Word).toNat + (1 : Word).toNat ≤ 2 ^ 64 ∧
      (∀ a, msgReadable side.params a = true) ∧ msgSideEffect side.params 0x9000 = true :=
  ⟨by decide, by decide, fun _ => by simp [msgReadable, side, sideParams], by decide⟩
theorem witness_FaultEntryIsPrecise :
    (withQ [0xE05]).err = false ∧ ∃ t, step (withQ [0xE05]) = .next t ∧ t.err = true := ⟨rfl, _, rfl, rfl⟩
theorem witness_MessageMemoryNeverWritten :
    ∃ t, step { withM foo with cmdq := [0x3, 0x1000, 3] } = .next t ∧ t.cix = 1 := ⟨_, rfl, rfl⟩
theorem witness_NoReadOutsideRange :
    ∀ addr len, messageOperand (.write 0x1000 3) = some (addr, len) →
      ∀ a, addr.toNat ≤ a → a < addr.toNat + len.toNat →
        Memory.read (foo ++ [(0x1003, 0x21)]) a = (withM foo).msg.read a := by
  intro addr len h a h1 h2
  cases h
  simp only [BitVec.reduceToNat] at h1 h2
  interval_cases a <;> decide
theorem witness_AddressDoesNotMatter :
    MessageLegal (withM [(1, 5), (9, 5)]).params 1 1 ∧ MessageLegal (withM [(1, 5), (9, 5)]).params 9 1 ∧
      ∀ j, j < 1 → (withM [(1, 5), (9, 5)]).msg.read (1 + j) = (withM [(1, 5), (9, 5)]).msg.read (9 + j) := by
  refine ⟨legal_default (by decide), legal_default (by decide), fun j h => ?_⟩
  interval_cases j; decide
theorem witness_RegistersChangeOnlyByTheirCommands :
    ∃ t, exec (.write 0 0) dirty = .next t ∧ startsCombiner (.write 0 0) = false ∧ pushesResult (.write 0 0) = false ∧
      isScalarDigest (.write 0 0) = false := ⟨_, rfl, rfl, rfl, rfl⟩
theorem witness_RegistersChangeOnlyByTheirCommands_finish :
    ∃ t, exec .finish dirty = .next t ∧ startsCombiner .finish = false ∧ isWrite .finish = false ∧
      isScalarDigest .finish = false := ⟨_, rfl, rfl, rfl, rfl⟩
theorem witness_KeyReachesOnlyWrite : isWrite .finish = false ∧ isWrite (.digestSip13 1 2 0 0) = false := by decide
theorem witness_PacketHoldsTheTail : (ramp 1).length = 1 ∧ (ramp 15).length = 15 ∧ (ramp 16).length = 16 ∧
    (ramp 31).length = 31 ∧ 15 % 4 ≠ 0 ∧ 12 % 4 = 0 := by decide
theorem witness_RotationsRotate : rotl64 1 1 = 2 ∧ rotl64 1 63 = 0x8000000000000000 ∧ rotl32 5 0 = 5 ∧
    rotl32 3 31 = 0x80000001 := by decide
theorem witness_SipTailWordLayout : (ramp 7).length % 8 = 7 ∧ (ramp 8).length % 8 = 0 ∧
    byteOf (sipTailWord (ramp 7)) 6 = 6 ∧ byteOf (sipTailWord (ramp 8)) 7 = 8 := by decide
theorem witness_ResetLeavesTheListedValues : ∃ t, hostStep .reset faulted = some t ∧ t.err = false := ⟨_, rfl, rfl⟩
theorem witness_StepKeepsInvariant :
    (withQ [0x4]).Inv ∧ ∃ t, step (withQ [0x4]) = .next t ∧ t.cix = 1 := ⟨by decide, _, rfl, rfl⟩
theorem witness_Inv_faulted_and_full : faulted.Inv ∧ lowFull.Inv ∧ dirty.Inv := by decide
theorem witness_HostMovesKeepInvariant :
    low.Inv ∧ (hostStep (.push 4) low).isSome = true ∧ (hostStep (.submit .finish) low).isSome = true ∧
      (hostStep .pop lowFull).isSome = true ∧ (hostStep (.writeByte 5 6) low).isSome = true ∧
      (hostStep .reset low).isSome = true := by decide
theorem witness_QueuedCommandsRunInOrder :
    (withQ [0x1, 0x3, 0, 0, 0x4]).err = false ∧
    (withQ [0x1, 0x3, 0, 0, 0x4]).cmdq = [Instr.newHwy, .write 0 0, .finish].flatMap encode ∧
    (withQ [0x1, 0x3, 0, 0, 0x4]).params.outqDepth = none ∧
    ∀ i ∈ [Instr.newHwy, .write 0 0, .finish], Documented (withQ [0x1, 0x3, 0, 0, 0x4]).params i := by
  refine ⟨rfl, rfl, rfl, fun i hi => ?_⟩
  simp only [List.mem_cons, List.not_mem_nil, or_false] at hi
  rcases hi with rfl | rfl | rfl <;> refine ⟨rfl, fun a l h => ?_⟩ <;> cases h
  exact .inl rfl
theorem witness_HostQueuesAreFifo :
    State.reset.params.cmdqDepth = none ∧ low.params.cmdqDepth = some 7 ∧
      low.cmdq.length + ([1, 1, 1, 1, 1, 1, 1] : List Word).length ≤ 7 ∧
      7 ≤ ({ low with cmdq := [1, 1, 1, 1, 1, 1, 1] } : State).cmdq.length ∧ lowFull.out = 9 :: [] ∧ low.out = [] := by
  decide
/-- A pending command behind another, its words followed by a partly pushed one; its first and last byte in range. -/
theorem witness_HostCannotTouchPendingMessage :
    (hostStep (.writeByte 0x1003 1) (withQ [0x4, 0x3, 0x1000, 3, 0x3])).isSome = true ∧
      (withQ [0x4, 0x3, 0x1000, 3, 0x3]).cmdq = [Instr.finish, .write 0x1000 3].flatMap encode ++ [0x3] ∧
      Instr.write 0x1000 3 ∈ [Instr.finish, .write 0x1000 3] ∧
      namedRange (.write 0x1000 3) = some (0x1000, 3) := by decide
theorem witness_HostCannotTouchPendingMessage_absent :
    (hostStep (.push 4) (withQ [0xD05, 1, 2, 0x1000, 1])).isSome = true ∧
      (withQ [0xD05, 1, 2, 0x1000, 1]).cmdq = [Instr.digestSip24Avx2 1 2 0x1000 1].flatMap encode ++ [] ∧
      namedRange (.digestSip24Avx2 1 2 0x1000 1) = some (0x1000, 1) := by decide
theorem witness_HostWriteChangesOneByte :
    Memory.wf (withM foo).msg = true ∧ (hostWriteByte 0x1002 0 (withM foo)).isSome = true ∧
      (withQ [0x3, 0x1000, 3]).cmdq = [Instr.write 0x1000 3].flatMap encode ∧
      ∀ i ∈ [Instr.write 0x1000 3], ∀ addr len, namedRange i = some (addr, len) →
        ¬ (addr.toNat ≤ (0x1003 : Word).toNat ∧ (0x1003 : Word).toNat < addr.toNat + len.toNat) := by
  refine ⟨by decide, by decide, by decide, fun i hi addr len h => ?_⟩
  simp only [List.mem_singleton] at hi
  subst hi
  cases h
  decide
theorem witness_HostSubmitsBetweenCommands :
    (hostSubmit (.newkHwy 1 2 3 4) { low with cmdq := [0x4, 0x4] }).isSome = true ∧
      ({ low with cmdq := [0x4, 0x4] } : State).cmdq = [Instr.finish, .finish].flatMap encode ∧
      ({ low with cmdq := [0x4, 0x4] } : State).cmdq.length + instrWords (.newkHwy 1 2 3 4) ≤ 7 ∧
      (withQ [0x4, 0x3]).cmdq = [Instr.finish].flatMap encode ++ (encode (.write 5 6)).take 1 ∧
      (withQ [0x4, 0x3, 5]).cmdq = [Instr.finish].flatMap encode ++ (encode (.write 5 6)).take 2 ∧
      2 < instrWords (.write 5 6) := by decide
theorem witness_SubmittedCommandRuns : ∃ t, State.reset.err = false ∧ State.reset.cmdq = [] ∧
    hostSubmit (.write 0 0) State.reset = some t := ⟨_, rfl, rfl, rfl⟩

end Sys2Proof.Tests
end

section
/-! PROOFS. The rotations of 00_scope.md R8 and 42_highway_lane_pipeline.md R137, and the byte order of R9. -/

namespace Sys2Proof.Machine

/-- R8 writes `rotl64` for 1 to 63; at 0 the two shifts give `a` as well. -/
theorem rotl64_eq_rotateLeft (a : Word) {n : Nat} (hn : n < 64) : rotl64 a n = a.rotateLeft n :=
  (BitVec.rotateLeft_eq_rotateLeftAux_of_lt hn).symm

theorem rotl32_eq_rotateLeft (h : Half) {n : Nat} (hn : n < 32) : rotl32 h n = h.rotateLeft n := by
  by_cases h0 : n = 0
  · subst h0
    simp [rotl32, BitVec.rotateLeft_def, BitVec.ushiftRight_eq_zero (Nat.le_refl 32)]
  · rw [rotl32, if_neg h0, BitVec.rotateLeft_eq_rotateLeftAux_of_lt hn, BitVec.rotateLeftAux]

@[simp] theorem loHalf_rot32 (x : Word) (n : Nat) : loHalf (rot32 x n) = rotl32 (loHalf x) n :=
  BitVec.extractLsb'_append_eq_right

@[simp] theorem hiHalf_rot32 (x : Word) (n : Nat) : hiHalf (rot32 x n) = rotl32 (hiHalf x) n :=
  BitVec.extractLsb'_append_eq_left

/-- The `|||` of `le64` joins disjoint bits, so it is a sum; bytes pushed past bit 63 are lost. -/
theorem le64_cons_toNat (b : Byte) (bs : List Byte) :
    (le64 (b :: bs)).toNat = (b.toNat + 2 ^ 8 * (le64 bs).toNat) % 2 ^ 64 := by
  have hb : b.toNat < 2 ^ 8 := b.isLt
  have hshift : (le64 bs).toNat <<< 8 % 2 ^ 64 = 2 ^ 8 * ((le64 bs).toNat % 2 ^ 56) := by
    rw [Nat.shiftLeft_eq]
    omega
  calc (le64 (b :: bs)).toNat
      = b.toNat % 2 ^ 64 ||| (le64 bs).toNat <<< 8 % 2 ^ 64 := by
        rw [le64, BitVec.toNat_or, BitVec.toNat_setWidth, BitVec.toNat_shiftLeft]
    _ = 2 ^ 8 * ((le64 bs).toNat % 2 ^ 56) + b.toNat := by
        rw [hshift, Nat.mod_eq_of_lt (by omega : b.toNat < 2 ^ 64), Nat.or_comm, Nat.two_pow_add_eq_or_of_lt hb]
    _ = (b.toNat + 2 ^ 8 * (le64 bs).toNat) % 2 ^ 64 := by omega

/-- `le64` reads its bytes as digits of base `2^8`, least significant first, on a list of every length. -/
theorem le64_toNat (bs : List Byte) :
    (le64 bs).toNat = Nat.ofDigits (2 ^ 8) (bs.map BitVec.toNat) % 2 ^ 64 := by
  induction bs with
  | nil => rfl
  | cons b bs ih =>
    rw [le64_cons_toNat, ih, List.map_cons, Nat.ofDigits_cons]
    omega

/-- Up to eight bytes fit in the word, so `le64` loses nothing. -/
theorem le64_toNat_of_length_le {bs : List Byte} (h : bs.length ≤ 8) :
    (le64 bs).toNat = Nat.ofDigits (2 ^ 8) (bs.map BitVec.toNat) := by
  have hdigit : ∀ d ∈ bs.map BitVec.toNat, d < 2 ^ 8 := by
    rintro _ hd
    obtain ⟨b, -, rfl⟩ := List.mem_map.1 hd
    exact b.isLt
  have hfits : Nat.ofDigits (2 ^ 8) (bs.map BitVec.toNat) < 2 ^ 64 :=
    calc Nat.ofDigits (2 ^ 8) (bs.map BitVec.toNat)
        < (2 ^ 8) ^ (bs.map BitVec.toNat).length := Nat.ofDigits_lt_base_pow_length (by decide) hdigit
      _ ≤ (2 ^ 8) ^ 8 := Nat.pow_le_pow_right (by decide) (by rwa [List.length_map])
  rw [le64_toNat, Nat.mod_eq_of_lt hfits]

/-- Settles O37: each conjunct is the rotation lemma of its width, and the halves of `rot32` are rotated apart. -/
theorem rotationsRotate : Obligations.RotationsRotate := by
  refine ⟨fun a n _ hn => ?_, fun h n hn => ?_, fun x n hn => ⟨?_, ?_⟩⟩
  · exact rotl64_eq_rotateLeft a (by omega)
  · exact rotl32_eq_rotateLeft h (by omega)
  · exact (loHalf_rot32 x n).trans (rotl32_eq_rotateLeft _ (by omega))
  · exact (hiHalf_rot32 x n).trans (rotl32_eq_rotateLeft _ (by omega))

/-- Settles O39: the digits of base `2^8` that `le64` reads, written out for eight bytes. -/
theorem laneWordIsLittleEndian : Obligations.LaneWordIsLittleEndian := by
  intro b0 b1 b2 b3 b4 b5 b6 b7
  rw [le64_toNat_of_length_le (by simp)]
  simp only [List.map_cons, List.map_nil, Nat.ofDigits_cons, Nat.ofDigits_nil]
  omega

end Sys2Proof.Machine
end

section
/-! PROOFS. What a retirement leaves unchanged and what it does to `OUT` (10_state.md R20, R24, R31, R32); with the
holds and fault entries of Laws/Exec.lean these cover every step. -/

namespace Sys2Proof.Machine

/-! ### The classes of commands are disjoint -/

theorem pushesResult_eq_false_of_startsCombiner {i : Instr} (h : startsCombiner i = true) :
    pushesResult i = false := by
  revert h
  cases i <;> simp [startsCombiner, pushesResult, isFinish, isScalarDigest]

theorem pushesResult_eq_false_of_isWrite {i : Instr} (h : isWrite i = true) : pushesResult i = false := by
  revert h
  cases i <;> simp [isWrite, pushesResult, isFinish, isScalarDigest]

theorem pushesResult_of_isFinish {i : Instr} (h : isFinish i = true) : pushesResult i = true := by
  simp [pushesResult, h]

theorem pushesResult_of_isScalarDigest {i : Instr} (h : isScalarDigest i = true) : pushesResult i = true := by
  simp [pushesResult, h]

/-- `CAPS` is a constant (10_state.md R33, log 19). -/
theorem caps_eq_empty (c : Caps) : c = .empty := by
  cases c
  rfl

/-! ### Every retirement -/

namespace Retired

variable {i : Instr} {s t : State}

theorem err_eq (h : Retired i s t) : t.err = s.err := by cases h <;> rfl
theorem cause_eq (h : Retired i s t) : t.cause = s.cause := by cases h <;> rfl
theorem fcix_eq (h : Retired i s t) : t.fcix = s.fcix := by cases h <;> rfl
theorem cix_eq (h : Retired i s t) : t.cix = s.cix + 1 := by cases h <;> rfl
theorem cmdq_eq (h : Retired i s t) : t.cmdq = s.cmdq.drop (instrWords i) := by cases h <;> rfl
theorem msg_eq (h : Retired i s t) : t.msg = s.msg := by cases h <;> rfl
theorem params_eq (h : Retired i s t) : t.params = s.params := by cases h <;> rfl

/-- A retirement appends one word to an `OUT` that has room when the command pushes, and leaves `OUT` when not. -/
theorem out_cases (h : Retired i s t) :
    (pushesResult i = true ∧ OutHasRoom s ∧ ∃ v, t.out = s.out ++ [v]) ∨
      (pushesResult i = false ∧ t.out = s.out) := by
  cases h with
  | start k a hi => exact .inr ⟨pushesResult_eq_false_of_startsCombiner hi, rfl⟩
  | write d hi => exact .inr ⟨pushesResult_eq_false_of_isWrite hi, rfl⟩
  | finish hi hr => exact .inl ⟨pushesResult_of_isFinish hi, (outFull_eq_false_iff s).1 hr, _, rfl⟩
  | digest d hi hr => exact .inl ⟨pushesResult_of_isScalarDigest hi, (outFull_eq_false_iff s).1 hr, _, rfl⟩

theorem out_of_pushesResult (h : Retired i s t) (hp : pushesResult i = true) : ∃ v, t.out = s.out ++ [v] := by
  rcases h.out_cases with ⟨-, -, hv⟩ | ⟨hn, -⟩
  · exact hv
  · simp [hp] at hn

theorem out_eq (h : Retired i s t) (hp : pushesResult i = false) : t.out = s.out := by
  rcases h.out_cases with ⟨hn, -⟩ | ⟨-, ho⟩
  · simp [hp] at hn
  · exact ho

/-! ### The registers with few writers -/

theorem key_eq (h : Retired i s t) (hs : startsCombiner i = false) : t.key = s.key := by
  cases h with
  | start k a hi => simp [hi] at hs
  | write | finish | digest => rfl

theorem alg_eq (h : Retired i s t) (hs : startsCombiner i = false) : t.alg = s.alg := by
  cases h with
  | start k a hi => simp [hi] at hs
  | write | finish | digest => rfl

theorem acc_eq (h : Retired i s t) (hs : startsCombiner i = false) (hw : isWrite i = false) : t.acc = s.acc := by
  cases h with
  | start k a hi => simp [hi] at hs
  | write d hi => simp [hi] at hw
  | finish | digest => rfl

theorem st_eq (h : Retired i s t) (hs : startsCombiner i = false) (hw : isWrite i = false)
    (hf : isFinish i = false) : t.st = s.st := by
  cases h with
  | start k a hi => simp [hi] at hs
  | write d hi => simp [hi] at hw
  | finish hi => simp [hi] at hf
  | digest => rfl

theorem lanes_eq (h : Retired i s t) (hw : isWrite i = false) (hd : isScalarDigest i = false) :
    t.lanes = s.lanes := by
  cases h with
  | write d hi => simp [hi] at hw
  | digest d hi => simp [hi] at hd
  | start | finish => rfl

end Retired

end Sys2Proof.Machine
end

section
/-! PROOFS. Every step keeps the invariant: one lemma per clause of `State.Inv` for a fault entry and for a
retirement, since a hold keeps the whole state. -/

namespace Sys2Proof.Machine

theorem fitsDepth_of_le {m n : Nat} {d : Option Nat} (hmn : m ≤ n) (h : fitsDepth n d = true) :
    fitsDepth m d = true := by
  cases d with
  | none => rfl
  | some d => exact decide_eq_true (hmn.trans (of_decide_eq_true h))

/-- An `OUT` with room takes one more word within its depth (10_state.md R32). -/
theorem fitsDepth_succ_of_outHasRoom {s : State} (h : OutHasRoom s) :
    fitsDepth (s.out.length + 1) s.params.outqDepth = true := by
  cases hd : s.params.outqDepth with
  | none => rfl
  | some n => exact decide_eq_true (h n hd)

/-- Fault entry makes a sound record out of any (60_exceptions.md R196). -/
theorem raiseFault_faultRecordOk (c : Cause) (s : State) : faultRecordOk (raiseFault c s) := by
  obtain ⟨hlo, hhi⟩ := causeCode_range c
  exact ⟨nofun, fun _ => ⟨hlo, hhi, rfl⟩⟩

theorem raiseFault_keeps_inv {s : State} (c : Cause) (h : s.Inv) : (raiseFault c s).Inv := by
  obtain ⟨hm, -, hu, hq⟩ := h
  exact ⟨hm, raiseFault_faultRecordOk c s, hu, hq⟩

namespace Retired

variable {i : Instr} {s t : State}

/-- `CIX` moves on a retirement and `FCIX` does not, so the record stays sound only because no fault stands. -/
theorem keeps_faultRecordOk (h : Retired i s t) (he : s.err = false) (hf : faultRecordOk s) : faultRecordOk t := by
  obtain ⟨hclear, -⟩ := hf
  rw [faultRecordOk, h.err_eq, h.cause_eq, h.fcix_eq, he]
  exact ⟨fun _ => hclear he, nofun⟩

theorem keeps_upperKeyClear (h : Retired i s t) (hu : upperKeyClear s) : upperKeyClear t := by
  cases h with
  | start k a _ hk => exact hk
  | write | finish | digest => exact hu

theorem keeps_queuesFit (h : Retired i s t) (hq : queuesFit s) : queuesFit t := by
  obtain ⟨hcmdq, hout⟩ := hq
  rw [queuesFit, h.params_eq, h.cmdq_eq]
  refine ⟨fitsDepth_of_le (by simp) hcmdq, ?_⟩
  rcases h.out_cases with ⟨-, hroom, v, hv⟩ | ⟨-, ho⟩
  · rw [hv, List.length_append, List.length_singleton]
    exact fitsDepth_succ_of_outHasRoom hroom
  · rwa [ho]

theorem keeps_inv (h : Retired i s t) (he : s.err = false) (hs : s.Inv) : t.Inv := by
  obtain ⟨hm, hf, hu, hq⟩ := hs
  exact ⟨by rwa [h.msg_eq], h.keeps_faultRecordOk he hf, h.keeps_upperKeyClear hu, h.keeps_queuesFit hq⟩

end Retired

theorem exec_keeps_inv {i : Instr} {s t : State} (he : s.err = false) (hs : s.Inv) (h : exec i s = .next t) :
    t.Inv := by
  rcases exec_cases h with ⟨rfl, -⟩ | ⟨c, rfl⟩ | hr
  · exact hs
  · exact raiseFault_keeps_inv c hs
  · exact hr.keeps_inv he hs

/-- Settles O48: a step holds, enters a fault or executes a command, and each keeps the invariant. -/
theorem stepKeepsInvariant : Obligations.StepKeepsInvariant := by
  intro s t hs h
  obtain ⟨he, ⟨rfl, -⟩ | ⟨c, rfl⟩ | ⟨i, -, hi⟩⟩ := step_cases h
  · exact hs
  · exact raiseFault_keeps_inv c hs
  · exact exec_keeps_inv he hs hi

/-- Settles O9: the cases of `step` and of `exec`, with what a retirement does to `CMDQ`, `CIX` and `OUT`. -/
theorem everyStepHoldsFaultsOrRetires : Obligations.EveryStepHoldsFaultsOrRetires := by
  intro s t he h
  obtain ⟨-, ⟨rfl, hempty | hincomplete⟩ | ⟨c, rfl⟩ | ⟨i, hd, hi⟩⟩ := step_cases h
  · exact .inl ⟨rfl, .inl hempty⟩
  · exact .inl ⟨rfl, .inr (.inl hincomplete)⟩
  · exact .inr (.inl ⟨_, raiseFault_eq_withFault c s⟩)
  · rcases exec_cases hi with ⟨rfl, hfull, hp⟩ | ⟨c, rfl⟩ | hr
    · have hroom : ¬ OutHasRoom t := by simp [← outFull_eq_false_iff, hfull]
      exact .inl ⟨rfl, .inr (.inr ⟨i, hd, hp, hroom⟩)⟩
    · exact .inr (.inl ⟨_, raiseFault_eq_withFault c s⟩)
    · exact .inr (.inr ⟨i, hd, hr.err_eq.trans he, hr.cix_eq, hr.cmdq_eq, hr.out_of_pushesResult, hr.out_eq⟩)

/-- Settles O33: a hold and a fault entry write none of these registers, and a retirement only its command's. -/
theorem registersChangeOnlyByTheirCommands : Obligations.RegistersChangeOnlyByTheirCommands := by
  intro i s t h
  rcases exec_cases h with ⟨rfl, -⟩ | ⟨c, rfl⟩ | hr
  · simp [caps_eq_empty]
  · simp [caps_eq_empty]
  · exact ⟨fun hs => ⟨hr.key_eq hs, hr.alg_eq hs⟩, hr.acc_eq, hr.st_eq, hr.out_eq, hr.lanes_eq,
      caps_eq_empty _, hr.params_eq⟩

end Sys2Proof.Machine
end

section
/-! PROOFS. Registers that a command does not read: two states that agree after an overwriting `f` have next states
that agree after it. The 20 meanings have four forms, so each such claim has four cases. -/

namespace Sys2Proof.Machine

/-- The meaning of every command is a load of the combiner, `WRITE`, `FINISH`, or the template of `DIGEST` (R85), with
what its words fix. -/
theorem exec_form (i : Instr) :
    (∃ k a n, ∀ s, exec i s = .next (retire n (loadCombiner k a s))) ∨
    (∃ addr len, i = .write addr len) ∨ i = .finish ∨
    (∃ a b n k addr len, ∀ s, exec i s = digestCommand a b n k addr len s) := by
  cases i with
  | newHwy | newSip24 | newSip13 | newkHwy | newkSip24 | newkSip13 => exact .inl ⟨_, _, _, fun _ => rfl⟩
  | write addr len => exact .inr (.inl ⟨addr, len, rfl⟩)
  | finish => exact .inr (.inr (.inl rfl))
  | digestHwy | digestSip24 | digestSip13 | digestHwyScalar | digestSip24Scalar | digestSip13Scalar =>
    exact .inr (.inr (.inr ⟨_, _, _, _, _, _, fun _ => rfl⟩))
  | digestHwySse41 => exact .inr (.inr (.inr ⟨.hwy, .sse41, 7, [], 0, 0, fun _ => rfl⟩))
  | digestSip24Sse41 => exact .inr (.inr (.inr ⟨.sip24, .sse41, 5, [], 0, 0, fun _ => rfl⟩))
  | digestSip13Sse41 => exact .inr (.inr (.inr ⟨.sip13, .sse41, 5, [], 0, 0, fun _ => rfl⟩))
  | digestHwyAvx2 => exact .inr (.inr (.inr ⟨.hwy, .avx2, 7, [], 0, 0, fun _ => rfl⟩))
  | digestSip24Avx2 => exact .inr (.inr (.inr ⟨.sip24, .avx2, 5, [], 0, 0, fun _ => rfl⟩))
  | digestSip13Avx2 => exact .inr (.inr (.inr ⟨.sip13, .avx2, 5, [], 0, 0, fun _ => rfl⟩))

/-- The template of `DIGEST` acts on two states alike, seen through `f`, when they agree on the digest and on room in
`OUT` and `f` hides their difference from each next state it can have. -/
theorem mapNext_digestCommand_congr {f : State → State} {a : Alg} {b : Backend} {n : Nat} {k : List Word}
    {addr len : Word} {s t : State} (hd : digestMessage a b k addr len t = digestMessage a b k addr len s)
    (ho : outFull t = outFull s) (hhold : f t = f s) (hfault : ∀ c, f (raiseFault c t) = f (raiseFault c s))
    (hpush : ∀ d, f (retire n (pushOut d (clobberLanes t))) = f (retire n (pushOut d (clobberLanes s)))) :
    mapNext f (digestCommand a b n k addr len t) = mapNext f (digestCommand a b n k addr len s) := by
  unfold digestCommand
  rw [hd, ho]
  cases digestMessage a b k addr len s with
  | raise c => exact congrArg Host.Outcome.next (hfault c)
  | sideEffect => rfl
  | value d =>
    cases outFull s with
    | true => exact congrArg Host.Outcome.next hhold
    | false => exact congrArg Host.Outcome.next (hpush d)

/-- The same of `FINISH`. -/
theorem mapNext_execFinish_congr {f : State → State} {s t : State} (ho : outFull t = outFull s) (hhold : f t = f s)
    (hpush : f (retire 1 (pushOut t.acc { t with st := .finished })) =
      f (retire 1 (pushOut s.acc { s with st := .finished }))) :
    mapNext f (execFinish t) = mapNext f (execFinish s) := by
  unfold execFinish
  rw [ho]
  cases outFull s with
  | true => exact congrArg Host.Outcome.next hhold
  | false => exact congrArg Host.Outcome.next hpush

/-- The same of `WRITE`, whose digest reads `ALG` and `KEY` too. -/
theorem mapNext_execWrite_congr {f : State → State} {addr len : Word} {s t : State}
    (hd : digestMessage t.alg .dispatch (keyOf t.alg t.key) addr len t =
      digestMessage s.alg .dispatch (keyOf s.alg s.key) addr len s)
    (hfault : ∀ c, f (raiseFault c t) = f (raiseFault c s))
    (hfold : ∀ d, f (retire 3 (clobberLanes { t with acc := combine t.acc d, st := .opened })) =
      f (retire 3 (clobberLanes { s with acc := combine s.acc d, st := .opened }))) :
    mapNext f (execWrite addr len t) = mapNext f (execWrite addr len s) := by
  unfold execWrite
  rw [hd]
  cases digestMessage s.alg .dispatch (keyOf s.alg s.key) addr len s with
  | raise c => exact congrArg Host.Outcome.next (hfault c)
  | sideEffect => rfl
  | value d => exact congrArg Host.Outcome.next (hfold d)

/-- The sequencer reads `ERR` and `CMDQ` alone: the rest of a step is a command's. -/
theorem mapNext_step_congr {f : State → State} {s t : State} (he : t.err = s.err) (hq : t.cmdq = s.cmdq)
    (hhold : f t = f s) (hfault : ∀ c, f (raiseFault c t) = f (raiseFault c s))
    (hexec : ∀ i, mapNext f (exec i t) = mapNext f (exec i s)) :
    mapNext f (step t) = mapNext f (step s) := by
  unfold step sequencerStep
  rw [he, hq]
  cases s.err with
  | true => rfl
  | false =>
    cases decode s.cmdq with
    | empty | incomplete => exact congrArg Host.Outcome.next hhold
    | illegal c => exact congrArg Host.Outcome.next (hfault c)
    | command i => exact hexec i

/-- Settles O34: a load overwrites the key, and `FINISH` and the template of `DIGEST` carry it along unread. -/
theorem keyReachesOnlyWrite : Obligations.KeyReachesOnlyWrite := by
  intro i s k hw
  rcases exec_form i with ⟨k', a, n, h⟩ | ⟨addr, len, rfl⟩ | rfl | ⟨a, b, n, k', addr, len, h⟩
  · rw [h, h]
    rfl
  · simp [isWrite] at hw
  · exact mapNext_execFinish_congr rfl rfl rfl
  · rw [h, h]
    exact mapNext_digestCommand_congr rfl rfl rfl (fun _ => rfl) (fun _ => rfl)

/-- No command reads a lane register or `PKT` (10_state.md R30 (a)). -/
theorem mapNext_exec_lanes (i : Instr) (s : State) (K L : Lanes) :
    mapNext (fun t => { t with lanes := K }) (exec i { s with lanes := L }) =
      mapNext (fun t => { t with lanes := K }) (exec i s) := by
  rcases exec_form i with ⟨k, a, n, h⟩ | ⟨addr, len, rfl⟩ | rfl | ⟨a, b, n, k, addr, len, h⟩
  · rw [h, h]
    rfl
  · exact mapNext_execWrite_congr rfl (fun _ => rfl) (fun _ => rfl)
  · exact mapNext_execFinish_congr rfl rfl rfl
  · rw [h, h]
    exact mapNext_digestCommand_congr rfl rfl rfl (fun _ => rfl) (fun _ => rfl)

/-- Settles O35: the sequencer reads no lane register, and no command does. -/
theorem laneRegistersNeverRead : Obligations.LaneRegistersNeverRead := by
  intro s K L
  exact mapNext_step_congr rfl rfl rfl (fun _ => rfl) fun i => mapNext_exec_lanes i s K L

end Sys2Proof.Machine
end

section
/-! PROOFS. The status view (10_state.md R25, R36): one lemma per field of `STATUS`. The fields
below the one read are dropped one by one, from the lowest. -/

namespace Sys2Proof.Machine

theorem stBit_eq (b : CombinerState) : stBit b = if b = .finished then 1 else 0 := by
  cases b <;> rfl

theorem algCode_eq (a : Alg) : algCode a = if a = .hwy then 0 else if a = .sip24 then 1 else 2 := by
  cases a <;> rfl

namespace State

theorem status_bit_err (s : State) : s.status.getLsbD 0 = s.err := by
  rw [status, BitVec.getLsbD_append, if_pos (by decide)]
  simp

theorem status_cause (s : State) : s.status.extractLsb' 1 4 = s.cause := by
  rw [status, BitVec.extractLsb'_append_eq_of_le (by decide)]
  exact BitVec.extractLsb'_append_eq_right

theorem status_st (s : State) : s.status.extractLsb' 5 1 = stBit s.st := by
  rw [status, BitVec.extractLsb'_append_eq_of_le (by decide), BitVec.extractLsb'_append_eq_of_le (by decide)]
  exact BitVec.extractLsb'_append_eq_right

theorem status_alg (s : State) : s.status.extractLsb' 6 2 = algCode s.alg := by
  rw [status, BitVec.extractLsb'_append_eq_of_le (by decide), BitVec.extractLsb'_append_eq_of_le (by decide),
    BitVec.extractLsb'_append_eq_of_le (by decide)]
  exact BitVec.extractLsb'_append_eq_right

theorem status_reserved (s : State) : s.status.extractLsb' 8 56 = 0 := by
  rw [status, BitVec.extractLsb'_append_eq_of_le (by decide), BitVec.extractLsb'_append_eq_of_le (by decide),
    BitVec.extractLsb'_append_eq_of_le (by decide)]
  exact BitVec.extractLsb'_append_eq_left

end State

/-- Settles O43: each field of `STATUS`, and the codes of `ST` and `ALG`. -/
theorem statusLayout : Obligations.StatusLayout := by
  intro s
  exact ⟨s.status_bit_err, s.status_cause, s.status_st.trans (stBit_eq _), s.status_alg.trans (algCode_eq _),
    s.status_reserved⟩

/-- Settles O44: the arms of the status port. -/
theorem statusPortRegisters : Obligations.StatusPortRegisters :=
  fun _ => ⟨rfl, rfl, rfl, rfl⟩

end Sys2Proof.Machine
end

section
/-! PROOFS. The host's queues (10_state.md R31, R32), and the state after reset (R34). -/

namespace Sys2Proof.Machine

theorem cmdqLacksRoom_eq_false_iff {s : State} {n : Nat} :
    cmdqLacksRoom s n = false ↔ ∀ d, s.params.cmdqDepth = some d → s.cmdq.length + n ≤ d := by
  unfold cmdqLacksRoom
  cases s.params.cmdqDepth with
  | none => simp
  | some d => simp

theorem hostPush_of_room {w : Word} {s : State}
    (h : ∀ d, s.params.cmdqDepth = some d → s.cmdq.length + 1 ≤ d) :
    hostPush w s = some { s with cmdq := s.cmdq ++ [w] } :=
  hostPush_eq_some_iff.2 ⟨cmdqLacksRoom_eq_false_iff.2 h, rfl⟩

theorem hostPush_of_full {w : Word} {s : State} {d : Nat} (hd : s.params.cmdqDepth = some d)
    (hfull : d ≤ s.cmdq.length) : hostPush w s = none := by
  have hroom : cmdqLacksRoom s 1 = true := by simp [cmdqLacksRoom, hd]; omega
  simp [hostPush, hroom]

theorem hostPop_of_cons {v : Word} {rest : List Word} {s : State} (h : s.out = v :: rest) :
    hostPop s = some (v, { s with out := rest }) := by
  simp [hostPop, h]

theorem hostPop_of_nil {s : State} (h : s.out = []) : hostPop s = none := by
  simp [hostPop, h]

/-- Words pushed one by one stand in `CMDQ` in push order, by induction on them from any state with room for all. -/
theorem foldlM_hostPush (ws : List Word) (s : State)
    (h : ∀ d, s.params.cmdqDepth = some d → s.cmdq.length + ws.length ≤ d) :
    ws.foldlM (fun t w => hostPush w t) s = some { s with cmdq := s.cmdq ++ ws } := by
  induction ws generalizing s with
  | nil => simp
  | cons w ws ih =>
    simp only [List.length_cons] at h
    have hone : ∀ d, s.params.cmdqDepth = some d → s.cmdq.length + 1 ≤ d := fun d hd => by
      have := h d hd
      omega
    have hrest : ∀ d, s.params.cmdqDepth = some d → (s.cmdq ++ [w]).length + ws.length ≤ d := fun d hd => by
      have := h d hd
      simp only [List.length_append, List.length_singleton]
      omega
    calc (w :: ws).foldlM (fun t w => hostPush w t) s
        = ws.foldlM (fun t w => hostPush w t) { s with cmdq := s.cmdq ++ [w] } := by
          rw [List.foldlM_cons, hostPush_of_room hone, Option.bind_eq_bind, Option.bind_some]
      _ = some { s with cmdq := s.cmdq ++ w :: ws } := by
          rw [ih { s with cmdq := s.cmdq ++ [w] } hrest, List.append_assoc, List.singleton_append]

/-- Settles O51: pushes in order, no push at a full `CMDQ`, and a pop of the head of `OUT`. -/
theorem hostQueuesAreFifo : Obligations.HostQueuesAreFifo :=
  ⟨foldlM_hostPush, fun _ _ _ => hostPush_of_full, fun _ _ _ => hostPop_of_cons, fun _ => hostPop_of_nil⟩

/-- Settles O46: `NEW.HWY` loads what reset has left already, and there is nothing in `CMDQ` to remove. -/
theorem resetIsFreshHwyCombiner : Obligations.ResetIsFreshHwyCombiner :=
  fun _ => ⟨rfl, rfl⟩

/-- Settles O47: no entry in the message memory, no fault, a four-word key and empty queues. -/
theorem invariantHoldsAtReset : Obligations.InvariantHoldsAtReset :=
  ⟨Memory.reset_wf, ⟨fun _ => ⟨rfl, rfl⟩, nofun⟩, fun _ => ⟨rfl, rfl⟩, rfl, rfl⟩

end Sys2Proof.Machine
end

section
/-! PROOFS. A command's message (20_memory.md R41 to R50): what `memRead` answers fixes what the command does, and no
command changes the memory it reads. -/

namespace Sys2Proof.Machine

/-- Settles O24: one lemma on `memRead` for each of the empty, the wrapping, the unreadable and the legal range. -/
theorem memReadChecksThenReads : Obligations.MemReadChecksThenReads := by
  intro s addr len
  refine ⟨?_, memRead_wraps s, memRead_unreadable, fun _ hl => ?_⟩
  · rintro rfl
    exact memRead_empty addr s
  · exact ⟨_, memRead_legal hl, Memory.bytes_length _ _ _, Memory.bytes_getElem? _ _ _⟩

/-! ### The commands with and without a message -/

/-- A command that reads a message is `WRITE`, or the template of `DIGEST` (R85) on that message with the scalar
engine selected. -/
theorem exec_form_of_messageOperand {i : Instr} {addr len : Word} (h : messageOperand i = some (addr, len)) :
    i = .write addr len ∨
    ∃ a b n k, (∀ c, selectEngine c b = .scalar) ∧ ∀ s, exec i s = digestCommand a b n k addr len s := by
  cases i with
  | write =>
    cases h
    exact .inl rfl
  | digestHwy | digestSip24 | digestSip13 =>
    cases h
    exact .inr ⟨_, _, _, _, selectEngine_dispatch, fun _ => rfl⟩
  | digestHwyScalar | digestSip24Scalar | digestSip13Scalar =>
    cases h
    exact .inr ⟨_, _, _, _, selectEngine_scalar, fun _ => rfl⟩
  | _ => cases h

/-- A command that reads no message loads the combiner, is `FINISH`, or names an absent engine and faults. -/
theorem exec_form_of_messageOperand_none {i : Instr} (h : messageOperand i = none) :
    (∃ k a n, ∀ s, exec i s = .next (retire n (loadCombiner k a s))) ∨ i = .finish ∨
    ∀ s, exec i s = .next (raiseFault .backendUnavailable s) := by
  cases i with
  | newHwy | newSip24 | newSip13 | newkHwy | newkSip24 | newkSip13 => exact .inl ⟨_, _, _, fun _ => rfl⟩
  | finish => exact .inr (.inl rfl)
  | digestHwySse41 | digestSip24Sse41 | digestSip13Sse41 | digestHwyAvx2 | digestSip24Avx2 | digestSip13Avx2 =>
    exact .inr (.inr fun _ => rfl)
  | _ => cases h

/-! ### A message that is not read -/

/-- A fault of `MemRead` is the command's, whatever else the state holds. -/
theorem exec_of_memRead_raise {i : Instr} {s : State} {addr len : Word} {c : Cause}
    (hi : messageOperand i = some (addr, len)) (hr : memRead addr len s = .raise c) :
    exec i s = .next (raiseFault c s) := by
  rcases exec_form_of_messageOperand hi with rfl | ⟨a, b, n, k, hb, h⟩
  · simp only [exec, execWrite, digestMessage_scalar (selectEngine_dispatch _), hr]
  · simp only [h, digestCommand, digestMessage_scalar (hb _), hr]

/-- A range that `MemRead` refuses refuses the command (log 8). -/
theorem exec_of_memRead_sideEffect {i : Instr} {s : State} {addr len : Word}
    (hi : messageOperand i = some (addr, len)) (hr : memRead addr len s = .sideEffect) :
    exec i s = .refused .messageSideEffect := by
  rcases exec_form_of_messageOperand hi with rfl | ⟨a, b, n, k, hb, h⟩
  · simp only [exec, execWrite, digestMessage_scalar (selectEngine_dispatch _), hr]
  · simp only [h, digestCommand, digestMessage_scalar (hb _), hr]

/-- Settles O26: `MemRead` raises `MSG_ACCESS` on the range, and its fault is the command's. -/
theorem unreadableRangeFaults : Obligations.UnreadableRangeFaults := by
  intro i s addr len hi h0 hw hr
  exact exec_of_memRead_raise hi (memRead_unreadable h0 hw hr)

/-- Settles O27: `MemRead` refuses the range, and its refusal is the command's. -/
theorem sideEffectMessageRefused : Obligations.SideEffectMessageRefused := by
  intro i s addr len hi h0 hw hr hs
  exact exec_of_memRead_sideEffect hi (memRead_sideEffect h0 hw hr hs)

/-! ### The memory is read and not written -/

theorem exec_keeps_msg {i : Instr} {s t : State} (h : exec i s = .next t) : t.msg = s.msg := by
  rcases exec_cases h with ⟨rfl, -⟩ | ⟨c, rfl⟩ | hr
  · rfl
  · rfl
  · exact hr.msg_eq

theorem step_keeps_msg {s t : State} (h : step s = .next t) : t.msg = s.msg := by
  obtain ⟨-, ⟨rfl, -⟩ | ⟨c, rfl⟩ | ⟨i, -, hi⟩⟩ := step_cases h
  · rfl
  · rfl
  · exact exec_keeps_msg hi

/-- Settles O30: equal memories read alike. -/
theorem messageMemoryNeverWritten : Obligations.MessageMemoryNeverWritten := by
  intro s t h
  have hm := step_keeps_msg h
  exact ⟨hm, fun a => by rw [hm]⟩

theorem mapNext_eq_self {f : State → State} {o : Outcome} (h : ∀ t, o = .next t → f t = t) : mapNext f o = o := by
  cases o with
  | next t => exact congrArg Host.Outcome.next (h t rfl)
  | fault | refused => rfl

/-- Two memories that agree on a command's message give next states that differ in the memory alone. -/
theorem mapNext_exec_msg {i : Instr} {s : State} {m : Memory}
    (hm : ∀ addr len, messageOperand i = some (addr, len) →
      ∀ x, addr.toNat ≤ x → x < addr.toNat + len.toNat → m.read x = s.msg.read x) :
    mapNext (fun t => { t with msg := m }) (exec i { s with msg := m }) =
      mapNext (fun t => { t with msg := m }) (exec i s) := by
  cases hi : messageOperand i with
  | none =>
    rcases exec_form_of_messageOperand_none hi with ⟨k, a, n, h⟩ | rfl | h
    · rw [h, h]
      rfl
    · exact mapNext_execFinish_congr rfl rfl rfl
    · rw [h, h]
      rfl
  | some r =>
    obtain ⟨addr, len⟩ := r
    have hd : ∀ a b k, digestMessage a b k addr len { s with msg := m } = digestMessage a b k addr len s :=
      fun _ _ _ => digestMessage_congr rfl (hm addr len hi)
    rcases exec_form_of_messageOperand hi with rfl | ⟨a, b, n, k, -, h⟩
    · exact mapNext_execWrite_congr (hd _ _ _) (fun _ => rfl) (fun _ => rfl)
    · rw [h, h]
      exact mapNext_digestCommand_congr (hd _ _ _) rfl rfl (fun _ => rfl) (fun _ => rfl)

/-- Settles O31: the two runs differ in the memory alone, and the run on `m` ends with `m`. -/
theorem noReadOutsideRange : Obligations.NoReadOutsideRange := by
  intro i s m hm
  have hkeep : ∀ t, exec i { s with msg := m } = .next t → { t with msg := m } = t := fun t ht => by
    rw [← show t.msg = m from exec_keeps_msg ht]
  exact (mapNext_eq_self hkeep).symm.trans (mapNext_exec_msg hm)

/-! ### The message at another address -/

/-- Legal ranges with the same bytes have the same digest (R46). -/
theorem digestMessage_eq_of_bytes {a : Alg} {b : Backend} {k : List Word} {x y len : Word} {s : State}
    (hb : selectEngine s.caps b = .scalar) (hx : MessageLegal s.params x len) (hy : MessageLegal s.params y len)
    (h : ∀ j, j < len.toNat → s.msg.read (x.toNat + j) = s.msg.read (y.toNat + j)) :
    digestMessage a b k x len s = digestMessage a b k y len s := by
  rw [digestMessage_legal hb hx, digestMessage_legal hb hy, Memory.bytes_congr _ _ _ _ _ h]

/-- Settles O32: `WRITE` and the template of `DIGEST` use the address for the digest alone. -/
theorem addressDoesNotMatter : Obligations.AddressDoesNotMatter := by
  intro s x y len k0 k1 k2 k3 hx hy h
  have hwrite : exec (.write x len) s = exec (.write y len) s := by
    simp only [exec, execWrite, digestMessage_eq_of_bytes (selectEngine_dispatch _) hx hy h]
  have hdigest : ∀ a b n k, selectEngine s.caps b = .scalar →
      digestCommand a b n k x len s = digestCommand a b n k y len s := fun a b n k hb => by
    simp only [digestCommand, digestMessage_eq_of_bytes hb hx hy h]
  have hdispatch := fun a n k => hdigest a .dispatch n k (selectEngine_dispatch _)
  have hscalar := fun a n k => hdigest a .scalar n k (selectEngine_scalar _)
  exact ⟨hwrite, hdispatch _ _ _, hdispatch _ _ _, hdispatch _ _ _, hscalar _ _ _, hscalar _ _ _, hscalar _ _ _⟩

end Sys2Proof.Machine
end

section
/-! PROOFS. The messages of pending commands (20_memory.md R57). Whole commands at the head of `CMDQ` are what the
decoder finds there, so they are pending, and the host's write leaves their ranges alone. -/

namespace Sys2Proof.Machine

/-- A legal header with the words its operation awaits decodes to a command, whatever stands behind. -/
theorem decode_cons_of_header {w : Word} {ops q : List Word} {o : Op} (hd : decodeHeader w = .ok o)
    (hl : opAwaits o ≤ ops.length + 1) : decode (w :: ops ++ q) = .command (opInstr o (ops ++ q)) := by
  have hlen : ¬ (ops ++ q).length + 1 < opAwaits o := by
    rw [List.length_append]
    omega
  simp only [decode, List.cons_append, hd, if_neg hlen]

/-- The decoder reads a command from its words, whatever stands behind them. -/
theorem decode_encode_append (i : Instr) (q : List Word) : decode (encode i ++ q) = .command i := by
  cases i with
  | newHwy => exact decode_cons_of_header (o := .new .hwy) (by decide) (Nat.le_refl _)
  | newSip24 => exact decode_cons_of_header (o := .new .sip24) (by decide) (Nat.le_refl _)
  | newSip13 => exact decode_cons_of_header (o := .new .sip13) (by decide) (Nat.le_refl _)
  | newkHwy => exact decode_cons_of_header (o := .newk .hwy) (by decide) (Nat.le_refl _)
  | newkSip24 => exact decode_cons_of_header (o := .newk .sip24) (by decide) (Nat.le_refl _)
  | newkSip13 => exact decode_cons_of_header (o := .newk .sip13) (by decide) (Nat.le_refl _)
  | write => exact decode_cons_of_header (o := .write) (by decide) (Nat.le_refl _)
  | finish => exact decode_cons_of_header (o := .finish) (by decide) (Nat.le_refl _)
  | digestHwy => exact decode_cons_of_header (o := .digest .hwy .dispatch) (by decide) (Nat.le_refl _)
  | digestSip24 => exact decode_cons_of_header (o := .digest .sip24 .dispatch) (by decide) (Nat.le_refl _)
  | digestSip13 => exact decode_cons_of_header (o := .digest .sip13 .dispatch) (by decide) (Nat.le_refl _)
  | digestHwyScalar => exact decode_cons_of_header (o := .digest .hwy .scalar) (by decide) (Nat.le_refl _)
  | digestSip24Scalar => exact decode_cons_of_header (o := .digest .sip24 .scalar) (by decide) (Nat.le_refl _)
  | digestSip13Scalar => exact decode_cons_of_header (o := .digest .sip13 .scalar) (by decide) (Nat.le_refl _)
  | digestHwySse41 => exact decode_cons_of_header (o := .digest .hwy .sse41) (by decide) (Nat.le_add_left 1 _)
  | digestSip24Sse41 => exact decode_cons_of_header (o := .digest .sip24 .sse41) (by decide) (Nat.le_add_left 1 _)
  | digestSip13Sse41 => exact decode_cons_of_header (o := .digest .sip13 .sse41) (by decide) (Nat.le_add_left 1 _)
  | digestHwyAvx2 => exact decode_cons_of_header (o := .digest .hwy .avx2) (by decide) (Nat.le_add_left 1 _)
  | digestSip24Avx2 => exact decode_cons_of_header (o := .digest .sip24 .avx2) (by decide) (Nat.le_add_left 1 _)
  | digestSip13Avx2 => exact decode_cons_of_header (o := .digest .sip13 .avx2) (by decide) (Nat.le_add_left 1 _)

/-- No command is without words: the decoder finds none in an empty queue. -/
theorem encode_ne_nil (i : Instr) : encode i ≠ [] := by
  intro h
  have hd := decode_encode_append i []
  simp [h, decode] at hd

/-- Every command has a word at least, so no queue holds more commands than words. -/
theorem length_le_length_flatMap_encode (is : List Instr) : is.length ≤ (is.flatMap encode).length := by
  rw [List.length_flatMap, ← List.length_map (as := is) (fun i => (encode i).length)]
  refine List.length_le_sum_of_one_le _ fun n hn => ?_
  obtain ⟨i, -, rfl⟩ := List.mem_map.1 hn
  exact List.length_pos_iff.2 (encode_ne_nil i)

/-- A command whose words stand whole in `CMDQ` behind whole commands is pending, whatever follows. -/
theorem mem_pendingCommands {s : State} {is : List Instr} {rest : List Word} {i : Instr}
    (hq : s.cmdq = is.flatMap encode ++ rest) (hi : i ∈ is) : i ∈ pendingCommands s := by
  have hle : is.length ≤ s.cmdq.length := by
    rw [hq, List.length_append]
    exact (length_le_length_flatMap_encode is).trans (Nat.le_add_right _ _)
  obtain ⟨n, hn⟩ := Nat.exists_eq_add_of_le hle
  rw [pendingCommands, hn, hq, splitQueue_flatMap decode_encode_append]
  exact List.mem_append_left _ hi

/-- The host's write leaves the range that a pending command names as it was. -/
theorem hostWriteByte_keeps_pending {a : Word} {b : Byte} {s t : State} {i : Instr} {addr len : Word} {x : Nat}
    (h : hostWriteByte a b s = some t) (hi : i ∈ pendingCommands s) (hr : namedRange i = some (addr, len))
    (h1 : addr.toNat ≤ x) (h2 : x < addr.toNat + len.toNat) : t.msg.read x = s.msg.read x := by
  obtain ⟨hfree, rfl⟩ := hostWriteByte_eq_some_iff.1 h
  have hne : x ≠ a.toNat := by
    rintro rfl
    simp [addrPending_of_mem hi hr h1 h2] at hfree
  exact Memory.read_write_other s.msg hne b

/-- Every move of the host but the write leaves the message memory. -/
theorem hostStep_keeps_msg {h : HostMove} {s t : State}
    (hw : ∀ a b, h ≠ .writeByte a b) (hs : hostStep h s = some t) :
    t.msg = s.msg := by
  cases h with
  | push w =>
    obtain ⟨-, rfl⟩ := hostPush_eq_some_iff.1 hs
    rfl
  | submit i =>
    obtain ⟨-, -, rfl⟩ := hostSubmit_eq_some_iff.1 hs
    rfl
  | pop =>
    obtain ⟨r, hpop, rfl⟩ := Option.map_eq_some_iff.1 hs
    cases hout : s.out with
    | nil => simp [hostPop_of_nil hout] at hpop
    | cons v rest =>
      rw [hostPop_of_cons hout, Option.some.injEq] at hpop
      rw [← hpop]
  | writeByte a b => exact absurd rfl (hw a b)
  | reset =>
    cases hs
    rfl

/-- Settles O52: the command is pending, the host's write avoids its range, and the other moves write nothing. -/
theorem hostCannotTouchPendingMessage : Obligations.HostCannotTouchPendingMessage := by
  intro h s t is rest i addr len hs hq hi hr x h1 h2
  by_cases hw : ∃ a b, h = .writeByte a b
  · obtain ⟨a, b, rfl⟩ := hw
    exact hostWriteByte_keeps_pending hs (mem_pendingCommands hq hi) hr h1 h2
  · rw [hostStep_keeps_msg (fun a b hab => hw ⟨a, b, hab⟩) hs]

end Sys2Proof.Machine
end

section
/-! PROOFS. The header as fields and as a word (30_encoding.md R61), and the operations as the legal headers (R67): an
operation has one header, and the decoder answers it for that word alone. -/

namespace Sys2Proof.Machine

/-! ### The fields and the word (R61) -/

theorem toNat_append_eq_add {m n : Nat} (x : BitVec m) (y : BitVec n) :
    (x ++ y).toNat = 2 ^ n * x.toNat + y.toNat := by
  rw [BitVec.toNat_append, ← Nat.shiftLeft_add_eq_or_of_lt y.isLt, Nat.shiftLeft_eq, Nat.mul_comm]

theorem headerWord_toNat (f : Header) :
    (headerWord f).toNat = f.opc.toNat + 256 * f.alg.toNat + 1024 * f.bk.toNat + 4096 * f.rsv.toNat := by
  simp only [headerWord, toNat_append_eq_add]
  omega

/-- The four fields hold every bit of the header word. -/
theorem headerWord_headerFields (h : Word) : headerWord (headerFields h) = h := by
  apply BitVec.eq_of_toNat_eq
  simp only [headerWord_toNat, headerFields, hdrOpc, hdrAlg, hdrBk, hdrRsv, BitVec.extractLsb'_toNat,
    Nat.shiftRight_eq_div_pow]
  omega

theorem rsv_eq_zero_of_wf {f : Header} (h : f.wf = true) : f.rsv = 0 := by
  simp only [Header.wf, Header.rsvOk, Bool.and_eq_true, beq_iff_eq] at h
  obtain ⟨⟨⟨⟨-, hrsv⟩, -⟩, -⟩, -⟩ := h
  exact hrsv

/-! ### The codes of the algorithms and the backends (R63, R64) -/

theorem algOfCode_eq_some_iff {c : BitVec 2} {a : Alg} : algOfCode c = some a ↔ c = algCode a := by
  revert c
  cases a <;> decide

/-- The code of `BK` in a header. -/
def backendCode : Backend → BitVec 2
  | .dispatch => 0
  | .scalar => 1
  | .sse41 => 2
  | .avx2 => 3

theorem backendCode_backendOfCode (c : BitVec 2) : backendCode (backendOfCode c) = c := by
  revert c
  decide

/-! ### The operations and their headers (R67) -/

/-- The header of an operation. -/
def opHeader : Op → Header
  | .new a => ⟨1, algCode a, 0, 0⟩
  | .newk a => ⟨2, algCode a, 0, 0⟩
  | .write => ⟨3, 0, 0, 0⟩
  | .finish => ⟨4, 0, 0, 0⟩
  | .digest a b => ⟨5, algCode a, backendCode b, 0⟩

/-- The operations in the order of the table of R67. -/
def allOps : List Op :=
  let algs := [Alg.hwy, .sip24, .sip13]
  algs.map .new ++ algs.map .newk ++ [.write, .finish] ++
    [Backend.dispatch, .scalar, .sse41, .avx2].flatMap fun b => algs.map fun a => .digest a b

theorem mem_allOps (o : Op) : o ∈ allOps := by
  cases o with
  | new a => cases a <;> decide
  | newk a => cases a <;> decide
  | write => decide
  | finish => decide
  | digest a b => cases a <;> cases b <;> decide

theorem decodeHeader_headerWord_opHeader (o : Op) : decodeHeader (headerWord (opHeader o)) = .ok o :=
  have hall : ∀ o ∈ allOps, decodeHeader (headerWord (opHeader o)) = .ok o := by decide
  hall o (mem_allOps o)

theorem decodeAlg_eq_ok_iff {h : Word} {mk : Alg → Op} {o : Op} :
    decodeAlg h mk = .ok o ↔ ∃ a, hdrAlg h = algCode a ∧ mk a = o := by
  simp only [decodeAlg, ← algOfCode_eq_some_iff]
  cases algOfCode (hdrAlg h) <;> simp

theorem headerFields_eq_mk_iff {h : Word} {opc : BitVec 8} {alg bk : BitVec 2} {rsv : BitVec 52} :
    headerFields h = ⟨opc, alg, bk, rsv⟩ ↔ hdrOpc h = opc ∧ hdrAlg h = alg ∧ hdrBk h = bk ∧ hdrRsv h = rsv := by
  rw [headerFields, Header.mk.injEq]

/-- The checks of R68 leave no field of a legal header free. -/
theorem headerFields_of_decodeHeader {h : Word} {o : Op} (hd : decodeHeader h = .ok o) :
    headerFields h = opHeader o := by
  simp only [decodeHeader, ne_eq] at hd
  split_ifs at hd with hopc hrsv h1 hbk h2 hbk h3 hz h4 hz
  · obtain ⟨a, halg, rfl⟩ := decodeAlg_eq_ok_iff.1 hd
    exact headerFields_eq_mk_iff.2 ⟨h1, halg, hbk, hrsv⟩
  · obtain ⟨a, halg, rfl⟩ := decodeAlg_eq_ok_iff.1 hd
    exact headerFields_eq_mk_iff.2 ⟨h2, halg, hbk, hrsv⟩
  · cases hd
    obtain ⟨halg, hbk⟩ := hz
    exact headerFields_eq_mk_iff.2 ⟨h3, halg, hbk, hrsv⟩
  · cases hd
    obtain ⟨halg, hbk⟩ := hz
    exact headerFields_eq_mk_iff.2 ⟨h4, halg, hbk, hrsv⟩
  · obtain ⟨a, halg, rfl⟩ := decodeAlg_eq_ok_iff.1 hd
    have h5 : hdrOpc h = 5 := by bv_omega
    exact headerFields_eq_mk_iff.2 ⟨h5, halg, (backendCode_backendOfCode _).symm, hrsv⟩

/-- A header is legal for one operation alone, and an operation has one header. -/
theorem decodeHeader_eq_ok_iff {h : Word} {o : Op} : decodeHeader h = .ok o ↔ h = headerWord (opHeader o) := by
  constructor
  · intro hd
    rw [← headerFields_of_decodeHeader hd, headerWord_headerFields]
  · rintro rfl
    exact decodeHeader_headerWord_opHeader o

/-! ### The headers of the commands -/

/-- `HeaderIsLegal` over all instructions at once. -/
theorem headerIsLegal (i : Instr) : Laws.HeaderIsLegal.Statement i := by
  cases i with
  | newHwy => exact Laws.HeaderIsLegal.newHwy
  | newSip24 => exact Laws.HeaderIsLegal.newSip24
  | newSip13 => exact Laws.HeaderIsLegal.newSip13
  | newkHwy => exact Laws.HeaderIsLegal.newkHwy ..
  | newkSip24 => exact Laws.HeaderIsLegal.newkSip24 ..
  | newkSip13 => exact Laws.HeaderIsLegal.newkSip13 ..
  | write => exact Laws.HeaderIsLegal.write ..
  | finish => exact Laws.HeaderIsLegal.finish
  | digestHwy => exact Laws.HeaderIsLegal.digestHwy ..
  | digestSip24 => exact Laws.HeaderIsLegal.digestSip24 ..
  | digestSip13 => exact Laws.HeaderIsLegal.digestSip13 ..
  | digestHwyScalar => exact Laws.HeaderIsLegal.digestHwyScalar ..
  | digestSip24Scalar => exact Laws.HeaderIsLegal.digestSip24Scalar ..
  | digestSip13Scalar => exact Laws.HeaderIsLegal.digestSip13Scalar ..
  | digestHwySse41 => exact Laws.HeaderIsLegal.digestHwySse41 ..
  | digestSip24Sse41 => exact Laws.HeaderIsLegal.digestSip24Sse41 ..
  | digestSip13Sse41 => exact Laws.HeaderIsLegal.digestSip13Sse41 ..
  | digestHwyAvx2 => exact Laws.HeaderIsLegal.digestHwyAvx2 ..
  | digestSip24Avx2 => exact Laws.HeaderIsLegal.digestSip24Avx2 ..
  | digestSip13Avx2 => exact Laws.HeaderIsLegal.digestSip13Avx2 ..

theorem instr_wf (i : Instr) : i.wf = true := by
  obtain ⟨hwf, -, -⟩ := headerIsLegal i
  exact hwf

theorem encode_head? (i : Instr) : (encode i).head? = some (headerWord i.header) := by
  obtain ⟨-, hhead, -⟩ := headerIsLegal i
  exact hhead

/-- Settles O3: the table of R67 lists each operation once with its header, and a command's first word is its header
with the reserved field at zero. -/
theorem legalHeadersAreTheTwenty : Obligations.LegalHeadersAreTheTwenty := by
  constructor
  · intro h o
    change _ ↔ (h, o, opWords o) ∈ allOps.map fun p => (headerWord (opHeader p), p, opWords p)
    rw [decodeHeader_eq_ok_iff, List.mem_map]
    constructor
    · rintro rfl
      exact ⟨o, mem_allOps o, rfl⟩
    · rintro ⟨p, -, hp⟩
      cases hp
      rfl
  · intro i
    refine ⟨headerWord i.header, encode_head? i, rfl, ?_⟩
    rw [headerWord_toNat, rsv_eq_zero_of_wf (instr_wf i)]
    rfl

end Sys2Proof.Machine
end

section
/-! PROOFS. The decoder and the encoder are inverse to each other (30_encoding.md R65, R66, R70, R71). -/

namespace Sys2Proof.Machine

/-! ### From the words to the command and back -/

/-- The decoder answers a command for a legal header with the awaited words behind it, and for nothing else. -/
theorem decode_eq_command_iff {q : List Word} {i : Instr} :
    decode q = .command i ↔
      ∃ h ops o, q = h :: ops ∧ decodeHeader h = .ok o ∧ opAwaits o ≤ ops.length + 1 ∧ opInstr o ops = i := by
  cases q with
  | nil => simp [decode]
  | cons h ops =>
    cases hd : decodeHeader h with
    | error c => simp [decode, hd]
    | ok o =>
      by_cases hl : ops.length + 1 < opAwaits o
      · simp [decode, hd, hl]
      · simp [decode, hd, hl, Nat.le_of_not_lt hl]

/-- The words of a command are its header and the words that `opInstr` reads, zero for one that is missing. -/
theorem encode_opInstr (o : Op) (ops : List Word) :
    encode (opInstr o ops) = headerWord (opHeader o) :: (List.range (opWords o - 1)).map fun n => ops.getD n 0 := by
  cases o with
  | new a => cases a <;> rfl
  | newk a => cases a <;> rfl
  | write => rfl
  | finish => rfl
  | digest a b => cases a <;> cases b <;> rfl

theorem opWords_pos (o : Op) : 0 < opWords o := by
  have hall : ∀ o ∈ allOps, 0 < opWords o := by decide
  exact hall o (mem_allOps o)

theorem instrWords_opInstr (o : Op) (ops : List Word) : instrWords (opInstr o ops) = opWords o := by
  rw [instrWords, encode_opInstr, List.length_cons, List.length_map, List.length_range,
    Nat.sub_add_cancel (opWords_pos o)]

theorem map_range_getD_eq_take {ops : List Word} {n : Nat} (h : n ≤ ops.length) :
    ((List.range n).map fun k => ops.getD k 0) = ops.take n := by
  apply List.ext_getElem
  · simp [h]
  · intro k hk _
    have hlt : k < ops.length := by
      simp only [List.length_map, List.length_range] at hk
      omega
    simp [hlt]

/-- Settles O2: the header is the operation's only one, and with all operand words there the command holds each. -/
theorem decodedWordsAreTheEncoding : Obligations.DecodedWordsAreTheEncoding := by
  intro q i hdec hlen
  obtain ⟨h, ops, o, rfl, hh, -, rfl⟩ := decode_eq_command_iff.1 hdec
  rw [instrWords_opInstr, List.length_cons] at hlen
  obtain ⟨n, hn⟩ := Nat.exists_eq_add_one.2 (opWords_pos o)
  have hops : n ≤ ops.length := by omega
  rw [instrWords_opInstr, encode_opInstr, hn, Nat.add_sub_cancel, List.take_succ_cons, map_range_getD_eq_take hops,
    decodeHeader_eq_ok_iff.1 hh]

/-! ### Sequences of commands -/

/-- No command's words are the beginning of another's, so the first command of a sequence of words is determined. -/
theorem encode_append_inj {i j : Instr} {p q : List Word} (h : encode i ++ p = encode j ++ q) : i = j ∧ p = q := by
  have hij : i = j := by
    have hd := decode_encode_append i p
    rw [h, decode_encode_append, Decoded.command.injEq] at hd
    exact hd.symm
  subst hij
  exact ⟨rfl, List.append_cancel_left h⟩

theorem eq_of_flatMap_encode_eq (is js : List Instr) (h : is.flatMap encode = js.flatMap encode) : is = js := by
  induction is generalizing js with
  | nil =>
    cases js with
    | nil => rfl
    | cons j js =>
      rw [List.flatMap_cons] at h
      exact absurd (List.append_eq_nil_iff.1 h.symm).1 (encode_ne_nil j)
  | cons i is ih =>
    cases js with
    | nil =>
      rw [List.flatMap_cons] at h
      exact absurd (List.append_eq_nil_iff.1 h).1 (encode_ne_nil i)
    | cons j js =>
      obtain ⟨rfl, hrest⟩ := encode_append_inj h
      rw [ih js hrest]

/-- Settles O1: a command's words decode to it with any words behind, so a sequence is read off its words one command
at a time. -/
theorem decodeEncodeRoundTrip : Obligations.DecodeEncodeRoundTrip :=
  ⟨fun i rest => ⟨instr_wf i, decode_encode_append i rest⟩, eq_of_flatMap_encode_eq⟩

/-- Settles O4: the worked words are the encodings of their commands. -/
theorem workedWordsDecode : Obligations.WorkedWordsDecode :=
  ⟨decode_encode_append .newHwy [], decode_encode_append (.newkSip24 1 2) [],
    decode_encode_append (.newkHwy 1 2 3 4) [], decode_encode_append (.write 0x1000 7) [],
    decode_encode_append .finish [], decode_encode_append (.digestHwyScalar 1 2 3 4 0x1000 7) [],
    decode_encode_append (.digestSip13 1 2 0x1000 7) [], decode_encode_append (.digestSip13Avx2 1 2 0x1000 7) []⟩

/-- Settles O6: every command is well-formed, and the sequencer runs the one it decodes. -/
theorem stepRunsDecodedInstruction : Obligations.StepRunsDecodedInstruction :=
  fun _ i he hd => ⟨instr_wf i, step_of_decode he hd⟩

end Sys2Proof.Machine
end

section
/-! PROOFS. The six `DIGEST` commands of the scalar engine (40_scalar_digest_engine.md R85 to R91): each is the template
of R85, which pushes the digest and carries the combiner along unread. -/

namespace Sys2Proof.Machine

/-! ### The digest is pushed -/

/-- The next state of the template of R85, field by field, on a legal message with room in `OUT`. -/
theorem digestCommand_pushes {a : Alg} {b : Backend} {n : Nat} {k : List Word} {addr len : Word} {s : State}
    (hb : selectEngine s.caps b = .scalar) (h : MessageLegal s.params addr len) (hr : OutHasRoom s) :
    digestCommand a b n k addr len s = .next { s with
      out := s.out ++ [digest s.params.engine a k (s.msg.bytes addr.toNat len.toNat)]
      cix := s.cix + 1, cmdq := s.cmdq.drop n, lanes := freeLanes s.freeIx, freeIx := s.freeIx + 1 } :=
  digestCommand_legal hb h hr

/-- Settles O19: the dispatcher selects the scalar engine, and the three commands leave the same free draw. -/
theorem dispatchedDigestPushes : Obligations.DispatchedDigestPushes := by
  intro s k0 k1 k2 k3 addr len h hr
  have hb : selectEngine s.caps .dispatch = .scalar := selectEngine_dispatch _
  exact ⟨freeLanes s.freeIx, s.freeIx + 1, digestCommand_pushes hb h hr, digestCommand_pushes hb h hr,
    digestCommand_pushes hb h hr⟩

/-- Settles O20: as O19, with the scalar engine named by the command. -/
theorem scalarDigestPushes : Obligations.ScalarDigestPushes := by
  intro s k0 k1 k2 k3 addr len h hr
  have hb : selectEngine s.caps .scalar = .scalar := selectEngine_scalar _
  exact ⟨freeLanes s.freeIx, s.freeIx + 1, digestCommand_pushes hb h hr, digestCommand_pushes hb h hr,
    digestCommand_pushes hb h hr⟩

/-! ### The combiner is neither read nor written -/

theorem exec_form_of_isScalarDigest {i : Instr} (hi : isScalarDigest i = true) :
    ∃ a b n k addr len, ∀ s, exec i s = digestCommand a b n k addr len s := by
  cases i with
  | digestHwy | digestSip24 | digestSip13 | digestHwyScalar | digestSip24Scalar | digestSip13Scalar =>
    exact ⟨_, _, _, _, _, _, fun _ => rfl⟩
  | _ => cases hi

/-- The state with another combiner: key, accumulator, algorithm and state bit. -/
def withCombiner (k : Quad) (acc : Word) (g : Alg) (b : CombinerState) (s : State) : State :=
  { s with key := k, acc := acc, alg := g, st := b }

section

variable {k : Quad} {acc : Word} {g : Alg} {b : CombinerState}
  {a : Alg} {e : Backend} {n : Nat} {ks : List Word} {addr len : Word} {s t : State}

/-- The template of R85 writes no part of the combiner: not in a fault entry, a hold or a retirement. -/
theorem withCombiner_of_digestCommand
    (h : digestCommand a e n ks addr len (withCombiner k acc g b s) = .next t) : withCombiner k acc g b t = t := by
  rcases digestCommand_cases a e n ks addr len (withCombiner k acc g b s) with
    ⟨c, hfault⟩ | hrefused | ⟨-, hhold⟩ | ⟨-, d, hpush⟩
  · cases hfault.symm.trans h
    rfl
  · cases hrefused.symm.trans h
  · cases hhold.symm.trans h
    rfl
  · cases hpush.symm.trans h
    rfl

/-- The template of R85 on another combiner: not read, so the two runs differ in the combiner alone; not written, so
the run on the other combiner ends with that one. -/
theorem digestCommand_withCombiner :
    digestCommand a e n ks addr len (withCombiner k acc g b s) =
      mapNext (withCombiner k acc g b) (digestCommand a e n ks addr len s) :=
  calc digestCommand a e n ks addr len (withCombiner k acc g b s)
      = mapNext (withCombiner k acc g b) (digestCommand a e n ks addr len (withCombiner k acc g b s)) :=
        (mapNext_eq_self fun _ => withCombiner_of_digestCommand).symm
    _ = mapNext (withCombiner k acc g b) (digestCommand a e n ks addr len s) :=
        mapNext_digestCommand_congr rfl rfl rfl (fun _ => rfl) (fun _ => rfl)

end

/-- Settles O23: each of the six commands is the template, which commutes with a change of the combiner. -/
theorem digestIgnoresCombiner : Obligations.DigestIgnoresCombiner := by
  intro i s k acc g b hi
  obtain ⟨a, e, n, ks, addr, len, h⟩ := exec_form_of_isScalarDigest hi
  rw [h, h]
  exact digestCommand_withCombiner

end Sys2Proof.Machine
end

section
/-! PROOFS. The bytes of a word, and the tail word of the SipHash lane pipeline (41_sip_lane_pipeline.md R114). -/

namespace Sys2Proof.Machine

/-! ### The bytes of a word -/

@[simp] theorem byteOf_or (x y : Word) (j : Nat) : byteOf (x ||| y) j = byteOf x j ||| byteOf y j :=
  BitVec.extractLsb'_or

theorem byteOf_setWidth_zero (b : Byte) : byteOf (b.setWidth 64) 0 = b := by
  ext i hi
  have hword : i < 64 := by omega
  simp [byteOf, hword, BitVec.getLsbD_eq_getElem hi]

theorem byteOf_setWidth_of_pos (b : Byte) {j : Nat} (hj : 0 < j) : byteOf (b.setWidth 64) j = 0 := by
  ext i hi
  have hbit : b.getLsbD (8 * j + i) = false := BitVec.getLsbD_of_ge b _ (by omega)
  simp [byteOf, hbit]

/-- A left shift by `k` bytes fills the lowest `k` bytes with zeros. -/
theorem byteOf_shiftLeft_of_lt (x : Word) {j k : Nat} (h : j < k) : byteOf (x <<< (8 * k)) j = 0 := by
  ext i hi
  have hlow : 8 * j + i < 8 * k := by omega
  simp [byteOf, hlow]

/-- A left shift by `k` bytes moves byte `j` to byte `k + j`, as far as the word reaches. -/
theorem byteOf_shiftLeft_add (x : Word) {j k : Nat} (h : k + j < 8) :
    byteOf (x <<< (8 * k)) (k + j) = byteOf x j := by
  ext i hi
  have hword : 8 * (k + j) + i < 64 := by omega
  have hhigh : ¬ 8 * (k + j) + i < 8 * k := by omega
  have hmove : 8 * (k + j) + i - 8 * k = 8 * j + i := by omega
  simp [byteOf, hword, hhigh, hmove, ← BitVec.getLsbD_eq_getElem]

/-- `le64` puts its first byte below the others, moved up by one byte. -/
theorem le64_cons (b : Byte) (bs : List Byte) : le64 (b :: bs) = b.setWidth 64 ||| (le64 bs <<< (8 * 1)) := by
  rw [le64, Nat.mul_one]

/-- Byte `j` of `le64 bs` is the `j`-th byte of the list, and 0 past its end (R9). -/
theorem byteOf_le64 (bs : List Byte) {j : Nat} (hj : j < 8) : byteOf (le64 bs) j = bs[j]?.getD 0 := by
  induction bs generalizing j with
  | nil => simp [le64, byteOf]
  | cons b bs ih =>
    rw [le64_cons, byteOf_or]
    cases j with
    | zero =>
      rw [byteOf_setWidth_zero, byteOf_shiftLeft_of_lt _ Nat.one_pos, List.getElem?_cons_zero, Option.getD_some]
      exact BitVec.or_zero
    | succ j =>
      have hmove : byteOf (le64 bs <<< (8 * 1)) (j + 1) = bs[j]?.getD 0 := by
        rw [Nat.add_comm j 1, byteOf_shiftLeft_add _ (by omega), ih (by omega)]
      rw [hmove, byteOf_setWidth_of_pos b j.succ_pos, List.getElem?_cons_succ]
      exact BitVec.zero_or

/-! ### The tail word -/

/-- The bytes behind the last full block (R114). -/
def sipTail (m : List Byte) : List Byte := m.drop (8 * (m.length / 8))

theorem length_sipTail (m : List Byte) : (sipTail m).length = m.length % 8 := by
  rw [sipTail, List.length_drop]
  omega

/-- The length byte is a byte moved to the top of the word. -/
theorem sipTailWord_eq (m : List Byte) :
    sipTailWord m = ((BitVec.ofNat 8 (m.length % 256)).setWidth 64 <<< (8 * 7)) ||| le64 (sipTail m) := by
  have hlen : m.length % 256 < 2 ^ 8 := Nat.mod_lt _ (by decide)
  have hbyte : (BitVec.ofNat 8 (m.length % 256)).setWidth 64 = BitVec.ofNat 64 (m.length % 256) :=
    BitVec.setWidth_ofNat_of_le_of_lt (by decide) hlen
  rw [hbyte]
  rfl

/-- Below the length byte the tail word is the remaining bytes, with zeros behind them. -/
theorem byteOf_sipTailWord_of_lt (m : List Byte) {j : Nat} (hj : j < 7) :
    byteOf (sipTailWord m) j = (sipTail m)[j]?.getD 0 := by
  rw [sipTailWord_eq, byteOf_or, byteOf_shiftLeft_of_lt _ hj, byteOf_le64 _ (by omega)]
  exact BitVec.zero_or

/-- At most seven bytes remain, so nothing but the length reaches the top byte. -/
theorem byteOf_sipTailWord_seven (m : List Byte) :
    byteOf (sipTailWord m) 7 = BitVec.ofNat 8 (m.length % 256) := by
  have hend : (sipTail m)[7]? = none := List.getElem?_eq_none (by rw [length_sipTail]; omega)
  have htop := byteOf_shiftLeft_add ((BitVec.ofNat 8 (m.length % 256)).setWidth 64) (j := 0) (k := 7) (by decide)
  rw [sipTailWord_eq, byteOf_or, htop, byteOf_setWidth_zero, byteOf_le64 _ (by decide), hend]
  exact BitVec.or_zero

/-- Settles O41: `j < r` is inside the remaining bytes, `r ≤ j < 7` past their end. -/
theorem sipTailWordLayout : Obligations.SipTailWordLayout := by
  intro m
  refine ⟨fun j hj => ?_, fun j hr hj => ?_, byteOf_sipTailWord_seven m⟩
  · have hin : j < (sipTail m).length := by rwa [length_sipTail]
    have hj7 : j < 7 := by omega
    calc some (byteOf (sipTailWord m) j)
        = some ((sipTail m)[j]?.getD 0) := by rw [byteOf_sipTailWord_of_lt m hj7]
      _ = (sipTail m)[j]? := by rw [List.getElem?_eq_getElem hin, Option.getD_some]
  · have hend : (sipTail m)[j]? = none := List.getElem?_eq_none (by rwa [length_sipTail])
    rw [byteOf_sipTailWord_of_lt m hj, hend, Option.getD_none]

end Sys2Proof.Machine
end

section
/-! PROOFS. The zipper merge, the lane product and the packet buffer of the HighwayHash lane pipeline
(42_highway_lane_pipeline.md R132, R133, R136). -/

namespace Sys2Proof.Machine

/-! ### Words byte by byte -/

theorem eq_of_byteOf_eq {x y : Word} (h : ∀ j, j < 8 → byteOf x j = byteOf y j) : x = y := by
  refine BitVec.eq_of_getLsbD_eq fun i hi => ?_
  have hbyte := congrArg (BitVec.getLsbD · (i % 8)) (h (i / 8) (by omega))
  simpa [byteOf, Nat.mod_lt, Nat.div_add_mod] using hbyte

@[simp] theorem byteOf_and (x y : Word) (j : Nat) : byteOf (x &&& y) j = byteOf x j &&& byteOf y j :=
  BitVec.extractLsb'_and

/-- A constant read byte by byte, so that a mask is bytes `0x00` and `0xff`. -/
@[simp] theorem byteOf_ofNat (n j : Nat) :
    byteOf (BitVec.ofNat 64 n) j = BitVec.ofNat 8 (n % 2 ^ 64 / 2 ^ (8 * j)) := by
  rw [byteOf, BitVec.extractLsb', BitVec.toNat_ofNat, Nat.shiftRight_eq_div_pow]

/-- A mask byte `0xff` keeps the byte. -/
@[simp] theorem byte_and_ff (b : Byte) : b &&& 255#8 = b := BitVec.and_allOnes

/-- Past the word's eight bytes there are zeros. -/
@[simp] theorem byteOf_of_ge (x : Word) {j : Nat} (h : 8 ≤ j) : byteOf x j = 0 := by
  ext i hi
  have hpast : 64 ≤ 8 * j + i := by omega
  simp [byteOf, hpast]

/-- A right shift by whole bytes moves byte `n / 8 + j` to byte `j`. -/
@[simp] theorem byteOf_ushiftRight (x : Word) {n : Nat} (h : n % 8 = 0) (j : Nat) :
    byteOf (x >>> n) j = byteOf x (n / 8 + j) := by
  ext i hi
  have hbit : n + (8 * j + i) = 8 * (n / 8 + j) + i := by omega
  simp [byteOf, hbit]

/-- A left shift by whole bytes moves byte `j - n / 8` to byte `j` and fills with zeros below. -/
@[simp] theorem byteOf_shiftLeft (x : Word) {n : Nat} (h : n % 8 = 0) {j : Nat} (hj : j < 8) :
    byteOf (x <<< n) j = if j < n / 8 then 0 else byteOf x (j - n / 8) := by
  obtain ⟨k, rfl⟩ := Nat.dvd_of_mod_eq_zero h
  rw [Nat.mul_div_cancel_left k (by decide)]
  split
  next hlow => exact byteOf_shiftLeft_of_lt x hlow
  next hhigh =>
    have hmove := byteOf_shiftLeft_add x (j := j - k) (k := k) (by omega)
    rwa [Nat.add_sub_cancel' (by omega)] at hmove

/-! ### The zipper merge (R133) -/

/-- Settles O36: the masks keep whole bytes and the shifts move whole bytes, so the two forms have the same byte at
each of the eight places. -/
theorem zipByteAndMaskFormsAgree : Obligations.ZipByteAndMaskFormsAgree := by
  refine fun v1 v0 => ⟨eq_of_byteOf_eq fun j hj => ?_, eq_of_byteOf_eq fun j hj => ?_⟩
  · rw [zipEven, byteOf_le64 _ hj]
    interval_cases j <;> simp
  · rw [zipOdd, byteOf_le64 _ hj]
    interval_cases j <;> simp

/-! ### The lane product (R132) -/

theorem toNat_and_lowMask (x : Word) : (x &&& (0xffffffff : Nat)).toNat = x.toNat % 2 ^ 32 :=
  Nat.and_two_pow_sub_one_eq_mod x.toNat 32

/-- Settles O38: both factors are below `2^32`, so the product stays below `2^64` and the word keeps all of it. -/
theorem laneProductNeverWraps : Obligations.LaneProductNeverWraps := by
  intro lo hi
  have hlo : lo.toNat % 2 ^ 32 < 2 ^ 32 := Nat.mod_lt _ (by decide)
  have hhi : hi.toNat / 2 ^ 32 < 2 ^ 32 := Nat.div_lt_of_lt_mul hi.isLt
  have hfits : (lo.toNat % 2 ^ 32) * (hi.toNat / 2 ^ 32) < 2 ^ 64 :=
    (Nat.mul_lt_mul'' hlo hhi).trans_eq (by decide)
  rw [mulHalves, BitVec.toNat_mul, toNat_and_lowMask, BitVec.toNat_ushiftRight, Nat.shiftRight_eq_div_pow,
    Nat.mod_eq_of_lt hfits]

/-! ### Which tail byte stands where (R136) -/

/-- The whole groups of four stand at their own places. -/
theorem packetSource_of_lt {n p : Nat} (h : p < n - n % 4) : packetSource n p = some p :=
  if_pos h

/-- Behind the whole groups of a tail of 16 bytes or more, only the last four places hold tail bytes. -/
theorem packetSource_of_long {n p : Nat} (hn : 16 ≤ n) (hq : n - n % 4 ≤ p) :
    packetSource n p = if 28 ≤ p then some (n - 4 + (p - 28)) else none :=
  (if_neg (Nat.not_lt.2 hq)).trans (if_pos hn)

/-- Behind the whole groups of a shorter tail, the places 16 to 18 hold the bytes of the last, partial group. -/
theorem packetSource_of_short {n p : Nat} (hn : n < 16) (hr : n % 4 ≠ 0) (hq : n - n % 4 ≤ p) :
    packetSource n p =
      if p = 16 then some (n - n % 4)
      else if p = 17 then some (n - n % 4 + n % 4 / 2)
      else if p = 18 then some (n - n % 4 + n % 4 - 1)
      else none :=
  ((if_neg (Nat.not_lt.2 hq)).trans (if_neg (Nat.not_le.2 hn))).trans (if_neg hr)

/-- A shorter tail of whole groups has nothing behind them. -/
theorem packetSource_of_short_whole {n p : Nat} (hn : n < 16) (hr : n % 4 = 0) (hq : n - n % 4 ≤ p) :
    packetSource n p = none :=
  ((if_neg (Nat.not_lt.2 hq)).trans (if_neg (Nat.not_le.2 hn))).trans (if_pos hr)

/-- Every byte of a tail of at most 31 bytes is the source of some place: its own in the whole groups, one of the last
four places in a long tail, and one of the places 16 to 18 in a short one. -/
theorem exists_packetSource_eq {n j : Nat} (hn : n ≤ 31) (hj : j < n) :
    ∃ p, p < 32 ∧ packetSource n p = some j := by
  by_cases hgroup : j < n - n % 4
  · exact ⟨j, by omega, packetSource_of_lt hgroup⟩
  by_cases hlong : 16 ≤ n
  · refine ⟨28 + (j - (n - 4)), by omega, ?_⟩
    rw [packetSource_of_long hlong (by omega), if_pos (by omega), Option.some_inj]
    omega
  have hshort : n < 16 := by omega
  have hr : n % 4 ≠ 0 := by omega
  have hplace : j = n - n % 4 ∨ j = n - n % 4 + n % 4 / 2 ∨ j = n - n % 4 + n % 4 - 1 := by omega
  rcases hplace with rfl | rfl | rfl
  · exact ⟨16, by decide, by rw [packetSource_of_short hshort hr (by omega), if_pos rfl]⟩
  · exact ⟨17, by decide, by rw [packetSource_of_short hshort hr (by omega), if_neg (by decide), if_pos rfl]⟩
  · exact ⟨18, by decide, by
      rw [packetSource_of_short hshort hr (by omega), if_neg (by decide), if_neg (by decide), if_pos rfl]⟩

/-! ### The packet buffer (R136) -/

theorem length_hwyPacket (t : List Byte) : (hwyPacket t).length = 32 := by
  rw [hwyPacket, List.length_map, List.length_range]

theorem getElem?_hwyPacket_of_source {t : List Byte} {p j : Nat} (hp : p < 32) (hj : j < t.length)
    (h : packetSource t.length p = some j) : (hwyPacket t)[p]? = t[j]? := by
  simp [hwyPacket, hp, h, hj]

theorem getElem?_hwyPacket_of_none {t : List Byte} {p : Nat} (hp : p < 32)
    (h : packetSource t.length p = none) : (hwyPacket t)[p]? = some 0 := by
  simp [hwyPacket, hp, h]

/-- Settles O40: each clause reads off `packetSource` in one of its branches, and the last one is that every tail byte
is the source of some place. -/
theorem packetHoldsTheTail : Obligations.PacketHoldsTheTail := by
  intro t hpos hmax n r4 q
  refine ⟨length_hwyPacket t, fun j hj => ?groups, fun hn => ⟨fun j hj => ?last, fun p hq hp => ?longZero⟩,
    fun hn hr => ⟨?at16, ?at17, ?at18, fun p hq hp hne => ?shortZero⟩, fun hn hr p hq hp => ?wholeZero,
    fun j hj => ?everyByte⟩
  case groups => exact getElem?_hwyPacket_of_source (by omega) (by omega) (packetSource_of_lt hj)
  case last =>
    refine getElem?_hwyPacket_of_source (by omega) (by omega) ?_
    rw [packetSource_of_long hn (by omega), if_pos (by omega), Nat.add_sub_cancel_left]
  case longZero =>
    exact getElem?_hwyPacket_of_none (by omega) (by rw [packetSource_of_long hn hq, if_neg (by omega)])
  case at16 =>
    refine getElem?_hwyPacket_of_source (by decide) (by omega) ?_
    rw [packetSource_of_short hn hr (by omega), if_pos rfl]
  case at17 =>
    refine getElem?_hwyPacket_of_source (by decide) (by omega) ?_
    rw [packetSource_of_short hn hr (by omega), if_neg (by decide), if_pos rfl]
  case at18 =>
    refine getElem?_hwyPacket_of_source (by decide) (by omega) ?_
    rw [packetSource_of_short hn hr (by omega), if_neg (by decide), if_neg (by decide), if_pos rfl]
  case shortZero =>
    simp only [List.mem_cons, List.not_mem_nil, or_false, not_or] at hne
    obtain ⟨h16, h17, h18⟩ := hne
    exact getElem?_hwyPacket_of_none hp
      (by rw [packetSource_of_short hn hr hq, if_neg h16, if_neg h17, if_neg h18])
  case wholeZero => exact getElem?_hwyPacket_of_none hp (packetSource_of_short_whole hn hr hq)
  case everyByte =>
    obtain ⟨p, hp, hsource⟩ := exists_packetSource_eq hmax hj
    exact ⟨p, hp, getElem?_hwyPacket_of_source hp hj hsource⟩

end Sys2Proof.Machine
end

section
/-! PROOFS. The engine a command selects (43_backend_dispatch.md R150 to R158): the dispatcher selects the scalar one,
and a command that names an absent one faults from its header alone. -/

namespace Sys2Proof.Machine

/-! ### The selected engine is all that a backend code decides (R151) -/

/-- Backends that select the same engine make the same command. -/
theorem digestCommand_congr_selectEngine {b b' : Backend} {s : State}
    (hb : selectEngine s.caps b = selectEngine s.caps b') (a : Alg) (n : Nat) (k : List Word) (addr len : Word) :
    digestCommand a b n k addr len s = digestCommand a b' n k addr len s := by
  simp only [digestCommand, digestMessage, hb]

/-- Settles O22: the dispatcher selects the scalar engine, which the `SCALAR` forms name. -/
theorem dispatchAgreesWithScalar : Obligations.DispatchAgreesWithScalar := by
  intro s k0 k1 k2 k3 addr len
  have hb : selectEngine s.caps .dispatch = selectEngine s.caps .scalar := selectEngine_dispatch _
  exact ⟨digestCommand_congr_selectEngine hb .hwy 7 [k0, k1, k2, k3] addr len,
    digestCommand_congr_selectEngine hb .sip24 5 [k0, k1] addr len,
    digestCommand_congr_selectEngine hb .sip13 5 [k0, k1] addr len⟩

/-! ### An absent engine (R152) -/

/-- A command that names an absent engine is the template of `DIGEST` (R85) without its operands. -/
theorem exec_form_of_namesAbsentEngine {i : Instr} (hi : namesAbsentEngine i = true) :
    ∃ a b n x, (∀ c, selectEngine c b = .absent x) ∧ ∀ s, exec i s = digestCommand a b n [] 0 0 s := by
  cases i with
  | digestHwySse41 => exact ⟨.hwy, .sse41, 7, .sse41, selectEngine_sse41, fun _ => rfl⟩
  | digestSip24Sse41 => exact ⟨.sip24, .sse41, 5, .sse41, selectEngine_sse41, fun _ => rfl⟩
  | digestSip13Sse41 => exact ⟨.sip13, .sse41, 5, .sse41, selectEngine_sse41, fun _ => rfl⟩
  | digestHwyAvx2 => exact ⟨.hwy, .avx2, 7, .avx2, selectEngine_avx2, fun _ => rfl⟩
  | digestSip24Avx2 => exact ⟨.sip24, .avx2, 5, .avx2, selectEngine_avx2, fun _ => rfl⟩
  | digestSip13Avx2 => exact ⟨.sip13, .avx2, 5, .avx2, selectEngine_avx2, fun _ => rfl⟩
  | _ => cases hi

theorem exec_of_namesAbsentEngine {i : Instr} (hi : namesAbsentEngine i = true) (s : State) :
    exec i s = .next (withFault 3 s) := by
  obtain ⟨a, b, n, x, hb, h⟩ := exec_form_of_namesAbsentEngine hi
  rw [h, digestCommand_absent (hb _), raiseFault_eq_withFault]
  rfl

/-- The sequencer awaits no operand of a command whose engine is absent. -/
theorem opAwaits_digest_of_absent {b : Backend} {c : Caps} {x : Accel} (hb : selectEngine c b = .absent x) (a : Alg) :
    opAwaits (.digest a b) = 1 := by
  cases b with
  | dispatch => simp at hb
  | scalar => simp at hb
  | sse41 | avx2 => rfl

/-- A header whose backend selects an absent engine stands for a command that names one, whatever its operands. -/
theorem namesAbsentEngine_opInstr_digest {b : Backend} {c : Caps} {x : Accel} (hb : selectEngine c b = .absent x)
    (a : Alg) (ops : List Word) : namesAbsentEngine (opInstr (.digest a b) ops) = true := by
  cases b with
  | dispatch => simp at hb
  | scalar => simp at hb
  | sse41 | avx2 => cases a <;> rfl

/-- The header of a `DIGEST` on an absent engine decodes to the command, whatever stands behind it. -/
theorem decode_cons_of_absent {b : Backend} {c : Caps} {x : Accel} (hb : selectEngine c b = .absent x) (a : Alg)
    (rest : List Word) :
    decode (headerWord (opHeader (.digest a b)) :: rest) = .command (opInstr (.digest a b) rest) :=
  decode_cons_of_header (ops := []) (decodeHeader_headerWord_opHeader _) (opAwaits_digest_of_absent hb a).le

/-- The six headers of R153 to R158 are those of the three algorithms on the two absent engines. -/
theorem eq_headerWord_of_mem_absentHeaders {h : Word}
    (hm : h ∈ ([0x805, 0x905, 0xA05, 0xC05, 0xD05, 0xE05] : List Word)) :
    ∃ a b x, (∀ c, selectEngine c b = .absent x) ∧ h = headerWord (opHeader (.digest a b)) := by
  simp only [List.mem_cons, List.not_mem_nil, or_false] at hm
  rcases hm with rfl | rfl | rfl | rfl | rfl | rfl
  · exact ⟨.hwy, .sse41, _, selectEngine_sse41, rfl⟩
  · exact ⟨.sip24, .sse41, _, selectEngine_sse41, rfl⟩
  · exact ⟨.sip13, .sse41, _, selectEngine_sse41, rfl⟩
  · exact ⟨.hwy, .avx2, _, selectEngine_avx2, rfl⟩
  · exact ⟨.sip24, .avx2, _, selectEngine_avx2, rfl⟩
  · exact ⟨.sip13, .avx2, _, selectEngine_avx2, rfl⟩

/-- Settles O21: the absent engine faults before an operand is used, and one of the six headers is decoded to such a
command with no operand awaited. -/
theorem absentEngineCommandsFault : Obligations.AbsentEngineCommandsFault := by
  refine ⟨fun s i hi => exec_of_namesAbsentEngine hi s, fun s h rest he hq hm => ?_⟩
  obtain ⟨a, b, x, hb, rfl⟩ := eq_headerWord_of_mem_absentHeaders hm
  have hd : decode s.cmdq = .command (opInstr (.digest a b) rest) := by
    rw [hq, decode_cons_of_absent (hb s.caps)]
  rw [step_of_decode he hd]
  exact exec_of_namesAbsentEngine (namesAbsentEngine_opInstr_digest (hb s.caps) a rest) s

end Sys2Proof.Machine
end

section
/-! PROOFS. The combine step (44_streaming_combiner.md R162, R173). -/

namespace Sys2Proof.Machine

/-- What `Combine` adds to the digest: it depends on the accumulator alone. -/
def combineOffset (acc : Word) : Word := combineK + (acc <<< 6) + (acc >>> 2)

theorem combine_eq_xor_add (acc d : Word) : combine acc d = acc ^^^ (d + combineOffset acc) := by
  simp only [combine, combineOffset, BitVec.add_assoc]

@[simp] theorem combineOffset_zero : combineOffset 0 = combineK := rfl

/-- R173 (a): add a constant, then xor a constant; each is one to one and onto. -/
theorem combine_bijective (acc : Word) : Function.Bijective (combine acc) := by
  have hadd : Function.Bijective fun d : Word => d + combineOffset acc := AddGroup.addRight_bijective _
  have hxor : Function.Bijective fun x : Word => acc ^^^ x :=
    Function.Involutive.bijective fun x => by simp only [← BitVec.xor_assoc, BitVec.xor_self, BitVec.zero_xor]
  have hcomp : combine acc = (fun x : Word => acc ^^^ x) ∘ fun d : Word => d + combineOffset acc :=
    funext fun d => combine_eq_xor_add acc d
  rw [hcomp]
  exact hxor.comp hadd

/-- R173 (b). -/
theorem combine_zero (d : Word) : combine 0 d = d + combineK := by
  rw [combine_eq_xor_add, combineOffset_zero]
  exact BitVec.zero_xor

/-- Settles O14: the model's `combine` with `COMBINE_K` written out. -/
theorem combineIsTheFormula : Obligations.CombineIsTheFormula :=
  fun _ _ => rfl

/-- Settles O15: (a) and (b) by the lemmas above; (d) by evaluation; (e) by the digests 0 and 1 from accumulator 0. -/
theorem combineLaws : Obligations.CombineLaws :=
  ⟨combine_bijective, combine_zero, by decide, 0, 0, 1, by decide⟩

end Sys2Proof.Machine
end

section
/-! PROOFS. The exact next states of `NEW`, `NEWK`, `WRITE` and `FINISH` (44_streaming_combiner.md R163 to R170). -/

namespace Sys2Proof.Machine

/-! ### `NEW` and `NEWK` -/

/-- The retirement that `NEW` and `NEWK` share, field by field. -/
theorem retire_loadCombiner (n : Nat) (k : Quad) (a : Alg) (s : State) :
    retire n (loadCombiner k a s) = { s with
      key := k, alg := a, acc := 0, st := .opened, cix := s.cix + 1, cmdq := s.cmdq.drop n } :=
  rfl

/-- Settles O10: the three commands load a zero key. -/
theorem newClearsCombiner : Obligations.NewClearsCombiner :=
  ⟨rfl, rfl, rfl, fun s =>
    ⟨congrArg Host.Outcome.next (retire_loadCombiner 1 Quad.zero .hwy s),
      congrArg Host.Outcome.next (retire_loadCombiner 1 Quad.zero .sip24 s),
      congrArg Host.Outcome.next (retire_loadCombiner 1 Quad.zero .sip13 s)⟩⟩

/-- Settles O11: the three commands load their operands, with zeros above a two-word key. -/
theorem newkLoadsKey : Obligations.NewkLoadsKey :=
  fun s k0 k1 k2 k3 => ⟨rfl, rfl, rfl,
    congrArg Host.Outcome.next (retire_loadCombiner 5 ⟨k0, k1, k2, k3⟩ .hwy s),
    congrArg Host.Outcome.next (retire_loadCombiner 3 ⟨k0, k1, 0, 0⟩ .sip24 s),
    congrArg Host.Outcome.next (retire_loadCombiner 3 ⟨k0, k1, 0, 0⟩ .sip13 s)⟩

/-! ### `FINISH` -/

theorem exec_finish_of_room {s : State} (hr : OutHasRoom s) :
    exec .finish s = .next (retire 1 (pushOut s.acc { s with st := .finished })) := by
  simp only [exec, execFinish, (outFull_eq_false_iff s).2 hr, Bool.false_eq_true, if_false]

/-- Settles O13: with room `FINISH` does not hold, so it pushes and retires. -/
theorem finishPushesAccumulator : Obligations.FinishPushesAccumulator :=
  fun _ hr => exec_finish_of_room hr

/-! ### `WRITE` -/

/-- The digest that `WRITE` folds into `ACC`: under the combiner's algorithm and its key words (R169). -/
def writeDigest (s : State) (m : List Byte) : Word :=
  digest s.params.engine s.alg
    (if s.alg = .hwy then [s.key.x0, s.key.x1, s.key.x2, s.key.x3] else [s.key.x0, s.key.x1]) m

theorem writeDigest_congr {s t : State} (hp : t.params = s.params) (ha : t.alg = s.alg) (hk : t.key = s.key) :
    writeDigest t = writeDigest s := by
  funext m
  simp only [writeDigest, hp, ha, hk]

theorem exec_write_of_legal {addr len : Word} {s : State} (h : MessageLegal s.params addr len) :
    exec (.write addr len) s = .next (retire 3 (clobberLanes { s with
      acc := combine s.acc (writeDigest s (s.msg.bytes addr.toNat len.toNat)), st := .opened })) := by
  simp only [exec, execWrite, digestMessage_legal (selectEngine_dispatch _) h, keyOf_eq, writeDigest]

/-- A `WRITE` that leaves no fault had a legal message: on every other range it faults or is refused. -/
theorem messageLegal_of_exec_write {addr len : Word} {s t : State} (h : exec (.write addr len) s = .next t)
    (he : t.err = false) : MessageLegal s.params addr len := by
  have hraise : ∀ c, memRead addr len s ≠ .raise c := fun c hc => by
    cases (exec_of_memRead_raise rfl hc).symm.trans h
    cases he
  rcases memRead_cases addr len s with ⟨-, hl⟩ | ⟨hm, -⟩ | ⟨hm, -⟩ | ⟨hm, -⟩
  · exact hl
  · exact absurd hm (hraise _)
  · exact absurd hm (hraise _)
  · cases (exec_of_memRead_sideEffect rfl hm).symm.trans h

/-- Settles O12: the fold on a legal message, and the fault of `MemRead` on a wrapping and on an unreadable one. -/
theorem writeFoldsDigest : Obligations.WriteFoldsDigest := by
  intro s addr len
  refine ⟨rfl, fun hl => ⟨freeLanes s.freeIx, s.freeIx + 1, exec_write_of_legal hl⟩, fun h0 hw => ?_, ?_⟩
  · exact exec_of_memRead_raise rfl (memRead_wraps s h0 hw)
  · exact unreadableRangeFaults (.write addr len) s addr len rfl

end Sys2Proof.Machine
end

section
/-! PROOFS. What stays and what folds through a sequence of commands (44_streaming_combiner.md R172, R174). -/

namespace Sys2Proof.Machine

/-! ### The classes of commands are disjoint -/

theorem startsCombiner_eq_false_of_pushesResult {i : Instr} (h : pushesResult i = true) : startsCombiner i = false := by
  by_contra hs
  simp [pushesResult_eq_false_of_startsCombiner (eq_true_of_ne_false hs)] at h

theorem isWrite_eq_false_of_pushesResult {i : Instr} (h : pushesResult i = true) : isWrite i = false := by
  by_contra hw
  simp [pushesResult_eq_false_of_isWrite (eq_true_of_ne_false hw)] at h

theorem isFinish_eq_false_of_isScalarDigest {i : Instr} (h : isScalarDigest i = true) : isFinish i = false := by
  cases i with
  | finish => cases h
  | _ => rfl

/-- `WRITE`, `FINISH` and the executing `DIGEST` commands start no combiner. -/
theorem startsCombiner_eq_false_of_writes_or_pushes {i : Instr}
    (h : (isWrite i || isFinish i || isScalarDigest i) = true) : startsCombiner i = false := by
  cases i with
  | newHwy | newSip24 | newSip13 | newkHwy | newkSip24 | newkSip13 => cases h
  | _ => rfl

/-! ### Commands one after another -/

theorem execAll_cons_eq_next_iff {i : Instr} {is : List Instr} {s t : State} :
    execAll (i :: is) s = .next t ↔ ∃ u, exec i s = .next u ∧ execAll is u = .next t := by
  rw [execAll]
  cases exec i s <;> simp

/-- A property that each command of a list keeps holds after the list if it holds before. -/
theorem execAll_keeps {P : State → Prop} {is : List Instr} {s t : State}
    (hstep : ∀ i ∈ is, ∀ u v, exec i u = .next v → P u → P v) (h : execAll is s = .next t) (hs : P s) : P t := by
  induction is generalizing s with
  | nil =>
    cases h
    exact hs
  | cons i is ih =>
    obtain ⟨u, hi, hrest⟩ := execAll_cons_eq_next_iff.1 h
    obtain ⟨hhead, htail⟩ := List.forall_mem_cons.1 hstep
    exact ih htail hrest (hhead s u hi hs)

/-- No command lifts a fault (60_exceptions.md R200: reset alone does). -/
theorem exec_keeps_fault {i : Instr} {s t : State} (h : exec i s = .next t) (he : s.err = true) : t.err = true := by
  rcases exec_cases h with ⟨rfl, -⟩ | ⟨c, rfl⟩ | hr
  · exact he
  · rfl
  · exact hr.err_eq.trans he

/-- A list of commands that ends without a fault started without one. -/
theorem err_eq_false_of_execAll {is : List Instr} {s t : State} (h : execAll is s = .next t) (he : t.err = false) :
    s.err = false := by
  by_contra hs
  rw [Bool.not_eq_false] at hs
  rw [execAll_keeps (P := fun u => u.err = true) (fun _ _ _ _ => exec_keeps_fault) h hs] at he
  cases he

/-- A command that neither faults nor finds `OUT` full retires. -/
theorem retired_of_exec {i : Instr} {s t : State} (h : exec i s = .next t) (hr : OutHasRoom s) (he : t.err = false) :
    Retired i s t := by
  rcases exec_cases h with ⟨-, hfull, -⟩ | ⟨c, rfl⟩ | hret
  · simp [(outFull_eq_false_iff s).2 hr] at hfull
  · cases he
  · exact hret

theorem outHasRoom_of_unbounded {s : State} (h : s.params.outqDepth = none) : OutHasRoom s := by
  intro n hn
  cases h.symm.trans hn

/-! ### The fold of the written messages -/

theorem writtenMessages_append (m : Memory) (is js : List Instr) :
    writtenMessages m (is ++ js) = writtenMessages m is ++ writtenMessages m js :=
  List.filterMap_append

theorem writtenMessages_singleton_of_not_isWrite (m : Memory) {i : Instr} (h : isWrite i = false) :
    writtenMessages m [i] = [] := by
  cases i with
  | write => cases h
  | _ => rfl

theorem eq_write_of_isWrite {i : Instr} (h : isWrite i = true) : ∃ addr len, i = .write addr len := by
  cases i with
  | write addr len => exact ⟨addr, len, rfl⟩
  | _ => cases h

/-- From `s` to `t` the commands `is` retired, folded the messages they wrote into the accumulator, and changed nothing
that a later fold reads. -/
structure FoldsWrites (is : List Instr) (s t : State) : Prop where
  acc : t.acc = ((writtenMessages s.msg is).map (writeDigest s)).foldl combine s.acc
  key : t.key = s.key
  alg : t.alg = s.alg
  cix : t.cix = s.cix + BitVec.ofNat 64 is.length
  msg : t.msg = s.msg
  params : t.params = s.params

namespace FoldsWrites

variable {i : Instr} {is js : List Instr} {s u t : State}

theorem nil (s : State) : FoldsWrites [] s s :=
  ⟨rfl, rfl, rfl, (BitVec.add_zero _).symm, rfl, rfl⟩

theorem append (h : FoldsWrites is s u) (h' : FoldsWrites js u t) : FoldsWrites (is ++ js) s t where
  acc := by
    rw [h'.acc, h.acc, h.msg, writeDigest_congr h.params h.alg h.key, writtenMessages_append, List.map_append,
      List.foldl_append]
  key := h'.key.trans h.key
  alg := h'.alg.trans h.alg
  cix := by rw [h'.cix, h.cix, BitVec.add_assoc, ← BitVec.ofNat_add, List.length_append]
  msg := h'.msg.trans h.msg
  params := h'.params.trans h.params

/-- A retired command folds when its accumulator does. -/
theorem of_retired (h : Retired i s t) (hs : startsCombiner i = false)
    (hacc : t.acc = ((writtenMessages s.msg [i]).map (writeDigest s)).foldl combine s.acc) : FoldsWrites [i] s t :=
  ⟨hacc, h.key_eq hs, h.alg_eq hs, h.cix_eq, h.msg_eq, h.params_eq⟩

/-- One command: a `WRITE` folds its message, which is legal as there is no fault, and the others leave `ACC`. -/
theorem of_exec (hi : (isWrite i || isFinish i || isScalarDigest i) = true) (hr : OutHasRoom s)
    (h : exec i s = .next t) (he : t.err = false) : FoldsWrites [i] s t := by
  have hret : Retired i s t := retired_of_exec h hr he
  have hs : startsCombiner i = false := startsCombiner_eq_false_of_writes_or_pushes hi
  refine of_retired hret hs ?_
  cases hw : isWrite i with
  | true =>
    obtain ⟨addr, len, rfl⟩ := eq_write_of_isWrite hw
    cases (exec_write_of_legal (messageLegal_of_exec_write h he)).symm.trans h
    rfl
  | false =>
    rw [writtenMessages_singleton_of_not_isWrite _ hw]
    exact hret.acc_eq hs hw

/-- Any number of commands, by the first and the rest: the first leaves `OUT` unbounded, and no fault, since none could
be lifted later. -/
theorem of_execAll (hi : ∀ i ∈ is, (isWrite i || isFinish i || isScalarDigest i) = true)
    (ho : s.params.outqDepth = none) (h : execAll is s = .next t) (he : t.err = false) : FoldsWrites is s t := by
  induction is generalizing s with
  | nil =>
    cases h
    exact nil _
  | cons i is ih =>
    obtain ⟨u, hu, hrest⟩ := execAll_cons_eq_next_iff.1 h
    obtain ⟨hhead, htail⟩ := List.forall_mem_cons.1 hi
    have hfirst : FoldsWrites [i] s u :=
      of_exec hhead (outHasRoom_of_unbounded ho) hu (err_eq_false_of_execAll hrest he)
    exact hfirst.append (ih htail (by rw [hfirst.params, ho]) hrest)

end FoldsWrites

/-- Settles O16, by induction on the commands. -/
theorem writesFoldIntoAccumulator : Obligations.WritesFoldIntoAccumulator := by
  intro is s t hi ho _ h he
  have hf : FoldsWrites is s t := .of_execAll hi ho h he
  exact ⟨hf.acc, hf.key, hf.alg, hf.cix⟩

/-! ### Two `FINISH` commands -/

/-- A `DIGEST` keeps `ACC` whether it retires, holds or faults. -/
theorem exec_keeps_acc_of_isScalarDigest {i : Instr} {s t : State} (hi : isScalarDigest i = true)
    (h : exec i s = .next t) : t.acc = s.acc := by
  have hp : pushesResult i = true := pushesResult_of_isScalarDigest hi
  obtain ⟨-, hacc, -⟩ := registersChangeOnlyByTheirCommands i s t h
  exact hacc (startsCombiner_eq_false_of_pushesResult hp) (isWrite_eq_false_of_pushesResult hp)

/-- Settles O17: both push `ACC`, which the first `FINISH` and the digests after it leave as it was. -/
theorem finishIsIdempotent : Obligations.FinishIsIdempotent := by
  intro ds s s1 s2 s3 hds hroom hroom2 h1 h h3
  cases (exec_finish_of_room hroom).symm.trans h1
  cases (exec_finish_of_room hroom2).symm.trans h3
  have hacc : s2.acc = s.acc :=
    execAll_keeps (P := fun u => u.acc = s.acc)
      (fun i hi _ _ hu hP => (exec_keeps_acc_of_isScalarDigest (hds i hi) hu).trans hP) h rfl
  exact ⟨s.acc, rfl, by simp [hacc], hacc⟩

end Sys2Proof.Machine
end

section
/-! PROOFS. `ST` records which of `WRITE` and `FINISH` came last, and no command reads it (44_streaming_combiner.md
R171). -/

namespace Sys2Proof.Machine

/-- No command reads `ST`: a load, `WRITE` and `FINISH` overwrite it, and the template of `DIGEST` carries it along. -/
theorem mapNext_exec_st (i : Instr) (s : State) (b c : CombinerState) :
    mapNext (fun t => { t with st := .opened }) (exec i { s with st := b }) =
      mapNext (fun t => { t with st := .opened }) (exec i { s with st := c }) := by
  rcases exec_form i with ⟨k, a, n, h⟩ | ⟨addr, len, rfl⟩ | rfl | ⟨a, e, n, k, addr, len, h⟩
  · rw [h, h]
    rfl
  · exact mapNext_execWrite_congr rfl (fun _ => rfl) (fun _ => rfl)
  · exact mapNext_execFinish_congr rfl rfl rfl
  · rw [h, h]
    exact mapNext_digestCommand_congr rfl rfl rfl (fun _ => rfl) (fun _ => rfl)

/-- `CIX` advances on a retirement alone: a hold and a fault entry leave it. -/
theorem retired_of_cix {i : Instr} {s t : State} (h : exec i s = .next t) (hc : t.cix = s.cix + 1) : Retired i s t := by
  have hne : s.cix ≠ s.cix + 1 := by bv_omega
  rcases exec_cases h with ⟨rfl, -⟩ | ⟨c, rfl⟩ | hr
  · exact absurd hc hne
  · exact absurd hc hne
  · exact hr

namespace Retired

variable {i : Instr} {s t : State}

/-- `WRITE`, `NEW` and `NEWK`, the commands that push nothing, leave the combiner open. -/
theorem st_eq_opened (h : Retired i s t) (hp : pushesResult i = false) : t.st = .opened := by
  cases h with
  | start | write => rfl
  | finish hi => simp [pushesResult_of_isFinish hi] at hp
  | digest d hi => simp [pushesResult_of_isScalarDigest hi] at hp

theorem st_eq_finished (h : Retired i s t) (hf : isFinish i = true) : t.st = .finished := by
  cases h with
  | start k a hi => simp [startsCombiner_eq_false_of_pushesResult (pushesResult_of_isFinish hf)] at hi
  | write d hi => simp [isWrite_eq_false_of_pushesResult (pushesResult_of_isFinish hf)] at hi
  | finish => rfl
  | digest d hi => simp [isFinish_eq_false_of_isScalarDigest hi] at hf

theorem st_eq_of_isScalarDigest (h : Retired i s t) (hd : isScalarDigest i = true) : t.st = s.st :=
  have hp : pushesResult i = true := pushesResult_of_isScalarDigest hd
  h.st_eq (startsCombiner_eq_false_of_pushesResult hp) (isWrite_eq_false_of_pushesResult hp)
    (isFinish_eq_false_of_isScalarDigest hd)

end Retired

/-- Settles O18: no command reads `ST`, and the advance of `CIX` shows a retirement, which leaves its command's `ST`. -/
theorem stGatesNothing : Obligations.StGatesNothing := by
  refine ⟨mapNext_exec_st, fun i s t _ h hc => ?_⟩
  have hr : Retired i s t := retired_of_cix h hc
  exact ⟨fun hw => hr.st_eq_opened (pushesResult_eq_false_of_isWrite hw),
    fun hs => hr.st_eq_opened (pushesResult_eq_false_of_startsCombiner hs), hr.st_eq_finished,
    hr.st_eq_of_isScalarDigest⟩

end Sys2Proof.Machine
end

section
/-! PROOFS. Faults (60_exceptions.md R190 to R200): which headers and messages fault and with what cause, what a fault
entry changes, and that nothing faults inside the documented domain or runs after a fault. -/

namespace Sys2Proof.Machine

/-! ### The block without a step (R200) -/

/-- Settles O8: `ERR` is what the sequencer looks at first. -/
theorem haltedBlockHasNoStep : Obligations.HaltedBlockHasNoStep := by
  intro s he
  simp [step, sequencerStep, he]

/-! ### Illegal headers (R192, R193) -/

theorem step_of_illegal_header {s : State} {h : Word} {rest : List Word} {c : Cause} (he : s.err = false)
    (hq : s.cmdq = h :: rest) (hd : decodeHeader h = .error c) : step s = .next (raiseFault c s) := by
  simp [step, sequencerStep, he, hq, decode, hd]

/-- R68 step 1: no other field is looked at. -/
theorem decodeHeader_of_illegal_opc {h : Word} (hopc : hdrOpc h = 0 ∨ 5 < (hdrOpc h).toNat) :
    decodeHeader h = .error .illegalOpcode :=
  if_pos hopc

theorem decodeAlg_ok_or_reservedField (h : Word) (mk : Alg → Op) :
    (∃ o, decodeAlg h mk = .ok o) ∨ decodeAlg h mk = .error .reservedField := by
  unfold decodeAlg
  cases algOfCode (hdrAlg h) with
  | some a => exact .inl ⟨mk a, rfl⟩
  | none => exact .inr rfl

/-- R68 steps 2 to 5: once `OPC` is legal, every check that fails fails with `RESERVED_FIELD`. -/
theorem decodeHeader_ok_or_reservedField {h : Word} (hopc : ¬ (hdrOpc h = 0 ∨ 5 < (hdrOpc h).toNat)) :
    (∃ o, decodeHeader h = .ok o) ∨ decodeHeader h = .error .reservedField := by
  simp only [decodeHeader, if_neg hopc]
  split_ifs with hrsv h1 hbk h2 hbk h3 hz h4 hz
  · exact .inr rfl
  · exact decodeAlg_ok_or_reservedField h .new
  · exact .inr rfl
  · exact decodeAlg_ok_or_reservedField h .newk
  · exact .inr rfl
  · exact .inl ⟨.write, rfl⟩
  · exact .inr rfl
  · exact .inl ⟨.finish, rfl⟩
  · exact .inr rfl
  · exact decodeAlg_ok_or_reservedField h fun a => .digest a (backendOfCode (hdrBk h))

theorem algCode_ne_three (a : Alg) : (algCode a).toNat ≠ 3 := by
  cases a <;> decide

/-- A legal header has no field at a value that R193 lists. -/
theorem fields_of_decodeHeader_ok {h : Word} {o : Op} (hd : decodeHeader h = .ok o) :
    (hdrRsv h).toNat = 0 ∧ ((hdrOpc h).toNat ∈ [1, 2, 5] → (hdrAlg h).toNat ≠ 3) ∧
    ((hdrOpc h).toNat ∈ [3, 4] → (hdrAlg h).toNat = 0) ∧ ((hdrOpc h).toNat ∈ [1, 2, 3, 4] → (hdrBk h).toNat = 0) := by
  have hf := headerFields_of_decodeHeader hd
  cases o with
  | new | newk | write | finish | digest =>
    obtain ⟨hopc, halg, hbk, hrsv⟩ := headerFields_eq_mk_iff.1 hf
    simp [hopc, halg, hbk, hrsv, algCode_ne_three]

/-- Settles O5: an illegal `OPC` ends the decoder's first check; past it the decoder answers `RESERVED_FIELD` or an
operation, and the header of an operation has none of the wrong fields. -/
theorem illegalHeadersFault : Obligations.IllegalHeadersFault := by
  intro s h rest he hq
  have hopc_iff : ((hdrOpc h).toNat ∉ [1, 2, 3, 4, 5]) ↔ (hdrOpc h = 0 ∨ 5 < (hdrOpc h).toNat) := by
    simp only [List.mem_cons, List.not_mem_nil, or_false]
    bv_omega
  refine ⟨fun hopc => ?_, fun hopc hbad => ?_⟩
  · exact step_of_illegal_header he hq (decodeHeader_of_illegal_opc (hopc_iff.1 hopc))
  · rcases decodeHeader_ok_or_reservedField (fun hill => hopc_iff.2 hill hopc) with ⟨o, ho⟩ | herr
    · obtain ⟨hrsv, halg, halg0, hbk⟩ := fields_of_decodeHeader_ok ho
      rcases hbad with hr | ⟨hp, ha⟩ | ⟨hp, ha⟩ | ⟨hp, hb⟩
      · exact absurd hrsv hr
      · exact absurd ha (halg hp)
      · exact absurd (halg0 hp) ha
      · exact absurd (hbk hp) hb
    · exact step_of_illegal_header he hq herr

/-! ### Fault entry (R195, R196) -/

/-- Settles O25: `MemRead` raises `MSG_RANGE` on the range, and its fault is the command's. -/
theorem wrappingRangeFaults : Obligations.WrappingRangeFaults := by
  intro i s addr len hi h0 hw
  exact exec_of_memRead_raise hi (memRead_wraps s h0 hw)

/-- A step that sets `ERR` is a fault entry: a hold changes nothing and a retirement leaves `ERR`. -/
theorem eq_raiseFault_of_step {s t : State} (he : s.err = false) (h : step s = .next t) (ht : t.err = true) :
    ∃ c, t = raiseFault c s := by
  obtain ⟨-, ⟨rfl, -⟩ | hfault | ⟨i, -, hi⟩⟩ := step_cases h
  · simp [he] at ht
  · exact hfault
  · rcases exec_cases hi with ⟨rfl, -⟩ | hfault | hr
    · simp [he] at ht
    · exact hfault
    · simp [hr.err_eq, he] at ht

/-- Settles O29: the step is a fault entry, whose three registers `raiseFault` writes. -/
theorem faultEntryIsPrecise : Obligations.FaultEntryIsPrecise := by
  intro s t he h ht
  obtain ⟨c, rfl⟩ := eq_raiseFault_of_step he h ht
  exact ⟨rfl, causeCode_range c⟩

/-! ### The documented domain (R190) -/

/-- A command that reads no message and names no absent engine loads the combiner or is `FINISH`. -/
theorem exec_form_of_no_message {i : Instr} (hm : messageOperand i = none) (ha : namesAbsentEngine i = false) :
    (∃ k a n, ∀ s, exec i s = .next (retire n (loadCombiner k a s))) ∨ i = .finish := by
  cases i with
  | newHwy | newSip24 | newSip13 | newkHwy | newkSip24 | newkSip13 => exact .inl ⟨_, _, _, fun _ => rfl⟩
  | finish => exact .inr rfl
  | digestHwySse41 | digestSip24Sse41 | digestSip13Sse41 | digestHwyAvx2 | digestSip24Avx2 | digestSip13Avx2 =>
    cases ha
  | _ => cases hm

/-- The template of `DIGEST` on a legal message holds, or pushes and retires. -/
theorem digestCommand_legal_cases {a : Alg} {b : Backend} {n : Nat} {k : List Word} {addr len : Word} {s : State}
    (hb : selectEngine s.caps b = .scalar) (h : MessageLegal s.params addr len) :
    digestCommand a b n k addr len s = .next s ∨
      ∃ d, digestCommand a b n k addr len s = .next (retire n (pushOut d (clobberLanes s))) := by
  simp only [digestCommand, digestMessage_legal hb h]
  split
  · exact .inl rfl
  · exact .inr ⟨_, rfl⟩

/-- Settles O28: on a legal message, as without one, each form of command holds or retires, which leaves the fault
record. -/
theorem documentedCommandsNeverFault : Obligations.DocumentedCommandsNeverFault := by
  rintro i s ⟨habsent, hlegal⟩
  cases hm : messageOperand i with
  | none =>
    rcases exec_form_of_no_message hm habsent with ⟨k, a, n, h⟩ | rfl
    · exact ⟨_, h s, rfl, rfl, rfl⟩
    · rcases execFinish_cases s with ⟨-, h⟩ | ⟨-, h⟩ <;> exact ⟨_, h, rfl, rfl, rfl⟩
  | some r =>
    obtain ⟨addr, len⟩ := r
    have hl := hlegal addr len hm
    rcases exec_form_of_messageOperand hm with rfl | ⟨a, b, n, k, hb, h⟩
    · exact ⟨_, exec_write_of_legal hl, rfl, rfl, rfl⟩
    · rw [h]
      rcases digestCommand_legal_cases (hb s.caps) hl with h | ⟨d, h⟩ <;> exact ⟨_, h, rfl, rfl, rfl⟩

end Sys2Proof.Machine
end

section
/-! PROOFS. The host's moves (60_exceptions.md R214, R216): each keeps the invariant; and what a queue of whole commands,
with or without a partly pushed one behind them, lets the host write and submit. -/

namespace Sys2Proof.Machine

/-! ### The invariant -/

theorem fitsDepth_iff {n : Nat} {o : Option Nat} : fitsDepth n o = true ↔ ∀ d, o = some d → n ≤ d := by
  cases o <;> simp [fitsDepth]

/-- Words that `CMDQ` has room for keep the invariant, whatever they are. -/
theorem append_cmdq_keeps_inv {s : State} {ws : List Word} (hs : s.Inv) (hroom : cmdqLacksRoom s ws.length = false) :
    { s with cmdq := s.cmdq ++ ws }.Inv := by
  obtain ⟨hm, hf, hu, -, hout⟩ := hs
  have hcmdq : fitsDepth (s.cmdq ++ ws).length s.params.cmdqDepth = true := by
    rw [fitsDepth_iff, List.length_append]
    exact cmdqLacksRoom_eq_false_iff.1 hroom
  exact ⟨hm, hf, hu, hcmdq, hout⟩

/-- What a possible `hostPop` does. -/
theorem hostPop_eq_some_iff {v : Word} {s t : State} :
    hostPop s = some (v, t) ↔ ∃ rest, s.out = v :: rest ∧ t = { s with out := rest } := by
  cases hout : s.out with
  | nil => simp [hostPop_of_nil hout]
  | cons w rest => simp [hostPop_of_cons hout, eq_comm (a := t), and_assoc]

theorem hostPop_keeps_inv {s t : State} {v : Word} (hs : s.Inv) (h : hostPop s = some (v, t)) : t.Inv := by
  obtain ⟨rest, hout, rfl⟩ := hostPop_eq_some_iff.1 h
  obtain ⟨hm, hf, hu, hcmdq, hfit⟩ := hs
  have hle : rest.length ≤ s.out.length := by simp [hout]
  exact ⟨hm, hf, hu, hcmdq, fitsDepth_of_le hle hfit⟩

theorem hostWriteByte_keeps_inv {a : Word} {b : Byte} {s t : State} (hs : s.Inv) (h : hostWriteByte a b s = some t) :
    t.Inv := by
  obtain ⟨-, rfl⟩ := hostWriteByte_eq_some_iff.1 h
  obtain ⟨hm, hrest⟩ := hs
  exact ⟨Memory.write_wf hm a.isLt b, hrest⟩

/-- Reset makes everything of the invariant anew but the memory's form, which it leaves. -/
theorem resetBlock_inv {s : State} (hm : Memory.wf s.msg = true) : (resetBlock s).Inv :=
  ⟨hm, ⟨fun _ => ⟨rfl, rfl⟩, nofun⟩, fun _ => ⟨rfl, rfl⟩, fitsDepth_iff.2 fun _ _ => Nat.zero_le _,
    fitsDepth_iff.2 fun _ _ => Nat.zero_le _⟩

/-- Settles O49: one lemma for each move; the two pushes are one. -/
theorem hostMovesKeepInvariant : Obligations.HostMovesKeepInvariant := by
  intro h s t hs ht
  cases h with
  | push w =>
    obtain ⟨hroom, rfl⟩ := hostPush_eq_some_iff.1 ht
    exact append_cmdq_keeps_inv hs hroom
  | submit i =>
    obtain ⟨-, hroom, rfl⟩ := hostSubmit_eq_some_iff.1 ht
    exact append_cmdq_keeps_inv hs hroom
  | pop =>
    obtain ⟨⟨v, u⟩, hpop, rfl⟩ := Option.map_eq_some_iff.1 ht
    exact hostPop_keeps_inv hs hpop
  | writeByte a b => exact hostWriteByte_keeps_inv hs ht
  | reset =>
    cases ht
    obtain ⟨hm, -⟩ := hs
    exact resetBlock_inv hm

/-! ### A submission to an idle block (R214) -/

/-- Settles O53: the words pushed are all of `CMDQ`, and the decoder reads the command from them. -/
theorem submittedCommandRuns : Obligations.SubmittedCommandRuns := by
  intro i s t he hq h
  obtain ⟨-, -, rfl⟩ := hostSubmit_eq_some_iff.1 h
  have hd : decode (encode i) = .command i := by simpa using decode_encode_append i []
  rw [hq, List.nil_append]
  exact ⟨step_of_decode he hd, rfl⟩

/-! ### Whole commands in `CMDQ`, and what stands behind them -/

/-- No whole command stands at the head of a queue. -/
def NoWholeCommand (q : List Word) : Prop := ∀ i, decode q = .command i → q.length < instrWords i

theorem splitQueue_of_noWholeCommand {q : List Word} (h : NoWholeCommand q) (n : Nat) : splitQueue n q = ([], q) := by
  cases n with
  | zero => rfl
  | succ n =>
    cases hd : decode q with
    | command i => simp [splitQueue, hd, h i hd]
    | illegal | incomplete | empty => simp [splitQueue, hd]

/-- `CMDQ` splits into its whole commands and what stands behind them. -/
theorem splitQueue_cmdq {s : State} {is : List Instr} {rest : List Word} (hq : s.cmdq = is.flatMap encode ++ rest)
    (hrest : NoWholeCommand rest) : splitQueue s.cmdq.length s.cmdq = (is, rest) := by
  have hle : is.length ≤ s.cmdq.length := by
    rw [hq, List.length_append]
    exact (length_le_length_flatMap_encode is).trans (Nat.le_add_right _ _)
  obtain ⟨n, hn⟩ := Nat.exists_eq_add_of_le hle
  rw [hn, hq, splitQueue_flatMap decode_encode_append, splitQueue_of_noWholeCommand hrest, List.append_nil]

theorem splitQueue_cmdq_of_whole {s : State} {is : List Instr} (hq : s.cmdq = is.flatMap encode) :
    splitQueue s.cmdq.length s.cmdq = (is, []) :=
  splitQueue_cmdq (by simpa using hq) nofun

/-- The decoder finds a partly pushed command incomplete, or decides it from its header as one of the same length. -/
theorem decode_take_encode (j : Instr) {n : Nat} (h0 : 0 < n) :
    decode ((encode j).take n) = .incomplete ∨
      ∃ i, decode ((encode j).take n) = .command i ∧ instrWords i = instrWords j := by
  obtain ⟨h, ops, o, hj, hh, -, rfl⟩ := decode_eq_command_iff.1 (decode_encode_append j [])
  obtain ⟨m, rfl⟩ := Nat.exists_eq_add_one.2 h0
  rw [List.append_nil] at hj
  rw [hj, List.take_succ_cons, instrWords_opInstr]
  simp only [decode, hh]
  split
  · exact .inl rfl
  · exact .inr ⟨_, rfl, instrWords_opInstr o _⟩

theorem noWholeCommand_take_encode {j : Instr} {n : Nat} (h0 : 0 < n) (hn : n < instrWords j) :
    NoWholeCommand ((encode j).take n) := by
  intro i hd
  rcases decode_take_encode j h0 with h | ⟨i', h, hlen⟩ <;> rw [h] at hd <;> cases hd
  calc ((encode j).take n).length ≤ n := List.length_take_le _ _
    _ < instrWords j := hn
    _ = instrWords i := hlen.symm

/-! ### The host's write (20_memory.md R57) -/

/-- No range that whole commands name holds the address, so it is not pending. -/
theorem addrPending_eq_false {s : State} {is : List Instr} {x : Nat} (hq : s.cmdq = is.flatMap encode)
    (hfree : ∀ i ∈ is, ∀ addr len, namedRange i = some (addr, len) → ¬ (addr.toNat ≤ x ∧ x < addr.toNat + len.toNat)) :
    addrPending s x = false := by
  rw [addrPending, pendingCommands, splitQueue_cmdq_of_whole hq, List.any_eq_false]
  intro i hi
  cases hr : namedRange i with
  | none => simp
  | some r => simpa [inRange] using hfree i hi r.1 r.2 hr

/-- Settles O54: the write is `Memory.write`, and behind whole commands the pending ranges are those they name. -/
theorem hostWriteChangesOneByte : Obligations.HostWriteChangesOneByte := by
  refine ⟨fun s t a b hm h => ?_, fun s a b is hq hfree => ?_⟩
  · obtain ⟨-, rfl⟩ := hostWriteByte_eq_some_iff.1 h
    exact ⟨rfl, Memory.read_write_same hm _ b, fun x hx => Memory.read_write_other s.msg hx b⟩
  · exact ⟨_, hostWriteByte_eq_some_iff.2 ⟨addrPending_eq_false hq hfree, rfl⟩⟩

/-! ### The host's submission (93_implementation_defined.md U17) -/

theorem midCommand_of_whole {s : State} {is : List Instr} (hq : s.cmdq = is.flatMap encode) : midCommand s = false := by
  rw [midCommand, splitQueue_cmdq_of_whole hq]
  rfl

theorem midCommand_of_partial {s : State} {is : List Instr} {j : Instr} {n : Nat} (h0 : 0 < n) (hn : n < instrWords j)
    (hq : s.cmdq = is.flatMap encode ++ (encode j).take n) : midCommand s = true := by
  rw [midCommand, splitQueue_cmdq hq (noWholeCommand_take_encode h0 hn)]
  rcases decode_take_encode j h0 with h | ⟨i, h, -⟩ <;> simp only [h]

/-- Settles O55: what `hostSubmit` does where it is possible, and `midCommand` of the two kinds of queue. -/
theorem hostSubmitsBetweenCommands : Obligations.HostSubmitsBetweenCommands := by
  refine ⟨fun i s t h => ?_, fun is i s hq hroom => ?_, fun is j i n s h0 hn hq => ?_⟩
  · obtain ⟨-, -, rfl⟩ := hostSubmit_eq_some_iff.1 h
    rfl
  · refine ⟨_, hostSubmit_eq_some_iff.2 ⟨midCommand_of_whole hq, cmdqLacksRoom_eq_false_iff.2 hroom, rfl⟩, ?_⟩
    simp [hq]
  · simp [hostSubmit, midCommand_of_partial h0 hn hq]

end Sys2Proof.Machine
end

section
/-! PROOFS. The holds and the end of a run (70_reset_and_hazards.md R235, R236), and what reset leaves (R221). -/

namespace Sys2Proof.Machine

/-! ### The hold at an incomplete command -/

/-- A command whose engine is present is awaited whole (30_encoding.md R71). -/
theorem opAwaits_eq_opWords {o : Op} {ops : List Word} (h : namesAbsentEngine (opInstr o ops) = false) :
    opAwaits o = opWords o := by
  cases o with
  | new | newk | write | finish => rfl
  | digest a b =>
    cases b with
    | dispatch | scalar => rfl
    | sse41 => simp [namesAbsentEngine_opInstr_digest (selectEngine_sse41 .empty)] at h
    | avx2 => simp [namesAbsentEngine_opInstr_digest (selectEngine_avx2 .empty)] at h

/-- Some but not all words of a command whose engine is present: the header is there and says how many are missing. -/
theorem decode_take_encode_eq_incomplete {i : Instr} {n : Nat} (ha : namesAbsentEngine i = false) (h0 : 0 < n)
    (hn : n < instrWords i) : decode ((encode i).take n) = .incomplete := by
  obtain ⟨h, ops, o, hi, hh, -, rfl⟩ := decode_eq_command_iff.1 (decode_encode_append i [])
  obtain ⟨m, rfl⟩ := Nat.exists_eq_add_one.2 h0
  have hshort : (ops.take m).length + 1 < opAwaits o := by
    rw [instrWords_opInstr] at hn
    rw [opAwaits_eq_opWords ha, List.length_take]
    omega
  rw [List.append_nil] at hi
  rw [hi, List.take_succ_cons]
  simp only [decode, hh, if_pos hshort]

theorem step_of_incomplete {s : State} (he : s.err = false) (hd : decode s.cmdq = .incomplete) : step s = .next s := by
  simp [step, sequencerStep, he, hd]

theorem step_of_empty {s : State} (he : s.err = false) (hq : s.cmdq = []) : step s = .next s := by
  simp [step, sequencerStep, he, decode_eq_empty_iff.2 hq]

/-! ### The hold at a full `OUT` -/

/-- A command that pushes is `FINISH`, or the template of R85 on the message it reads. -/
theorem exec_form_of_pushesResult {i : Instr} (hp : pushesResult i = true) :
    i = .finish ∨ ∃ addr len a b n k, messageOperand i = some (addr, len) ∧ (∀ c, selectEngine c b = .scalar) ∧
      ∀ s, exec i s = digestCommand a b n k addr len s := by
  cases i with
  | finish => exact .inl rfl
  | digestHwy | digestSip24 | digestSip13 => exact .inr ⟨_, _, _, _, _, _, rfl, selectEngine_dispatch, fun _ => rfl⟩
  | digestHwyScalar | digestSip24Scalar | digestSip13Scalar =>
    exact .inr ⟨_, _, _, _, _, _, rfl, selectEngine_scalar, fun _ => rfl⟩
  | _ => cases hp

theorem exec_finish_of_full {s : State} (hfull : outFull s = true) : exec .finish s = .next s := by
  simp only [exec, execFinish, hfull, if_true]

/-- The fault checks of R85 pass on a legal message, so the hold is next. -/
theorem digestCommand_of_full {a : Alg} {b : Backend} {n : Nat} {k : List Word} {addr len : Word} {s : State}
    (hb : selectEngine s.caps b = .scalar) (h : MessageLegal s.params addr len) (hfull : outFull s = true) :
    digestCommand a b n k addr len s = .next s := by
  simp only [digestCommand, digestMessage_legal hb h, hfull, if_true]

theorem exec_of_full {i : Instr} {s : State} (hd : Documented s.params i) (hp : pushesResult i = true)
    (hfull : outFull s = true) : exec i s = .next s := by
  obtain ⟨-, hlegal⟩ := hd
  rcases exec_form_of_pushesResult hp with rfl | ⟨addr, len, a, b, n, k, hm, hb, h⟩
  · exact exec_finish_of_full hfull
  · rw [h]
    exact digestCommand_of_full (hb _) (hlegal addr len hm) hfull

/-- Settles O7: the decoder finds no command in the first two situations, and in the third the command itself holds. -/
theorem holdsChangeNothing : Obligations.HoldsChangeNothing := by
  refine ⟨fun s => step_of_empty, fun s i n he ha h0 hn hq => ?_, fun s i hd hp hroom => ?_⟩
  · exact step_of_incomplete he (hq ▸ decode_take_encode_eq_incomplete ha h0 hn)
  · have hfull : outFull s = true := by
      rwa [← outFull_eq_false_iff, Bool.not_eq_false] at hroom
    exact exec_of_full hd hp hfull

/-! ### Commands retired one after another -/

/-- From `s` to `t` the commands of the list retired, in order, and nothing else happened. -/
inductive RetiredAll : List Instr → State → State → Prop where
  | nil (s : State) : RetiredAll [] s s
  | cons {i : Instr} {is : List Instr} {s u t : State} (h : Retired i s u) (hs : RetiredAll is u t) :
      RetiredAll (i :: is) s t

namespace RetiredAll

variable {is : List Instr} {s t : State}

theorem err_eq (h : RetiredAll is s t) : t.err = s.err := by
  induction h with
  | nil => rfl
  | cons h _ ih => exact ih.trans h.err_eq

theorem cix_eq (h : RetiredAll is s t) : t.cix = s.cix + BitVec.ofNat 64 is.length := by
  induction h with
  | nil s => exact (BitVec.add_zero s.cix).symm
  | cons h _ ih =>
    rw [ih, h.cix_eq, List.length_cons, Nat.add_comm, BitVec.ofNat_add, BitVec.add_assoc]
    rfl

theorem cmdq_eq (h : RetiredAll is s t) : t.cmdq = s.cmdq.drop (is.flatMap encode).length := by
  induction h with
  | nil => rfl
  | cons h _ ih => rw [ih, h.cmdq_eq, List.drop_drop, List.flatMap_cons, List.length_append, instrWords]

/-- Nobody but the host pops, so the older results stay at the head of `OUT`; one word for each command that pushes
stands behind them (10_state.md R32). -/
theorem out_eq_append (h : RetiredAll is s t) :
    ∃ vs, t.out = s.out ++ vs ∧ vs.length = (is.filter pushesResult).length := by
  induction h with
  | nil s => exact ⟨[], (List.append_nil s.out).symm, rfl⟩
  | cons h _ ih =>
    obtain ⟨vs, hvs, hlen⟩ := ih
    rcases h.out_cases with ⟨hp, -, v, hv⟩ | ⟨hp, ho⟩
    · exact ⟨v :: vs, by rw [hvs, hv, List.append_assoc, List.singleton_append], by simp [hp, hlen]⟩
    · exact ⟨vs, by rw [hvs, ho], by simp [hp, hlen]⟩

end RetiredAll

/-! ### The run of a queue of whole commands -/

theorem run_succ_of_step {s u : State} (h : step s = .next u) (n : Nat) :
    Host.Core.run Sys2Proof.core (n + 1) s = Host.Core.run Sys2Proof.core n u := by
  have hcore : Sys2Proof.core.step s = .next u := h
  simp only [Host.Core.run, hcore]

/-- A command of the documented domain retires when nothing is faulted and `OUT` has room. -/
theorem exec_retires_of_documented {i : Instr} {s : State} (he : s.err = false) (hroom : OutHasRoom s)
    (hd : Documented s.params i) : ∃ u, exec i s = .next u ∧ Retired i s u := by
  obtain ⟨u, hu, herr, -⟩ := documentedCommandsNeverFault i s hd
  exact ⟨u, hu, retired_of_exec hu hroom (herr.trans he)⟩

/-- Documented commands that make up `CMDQ` retire one a step, as they do when executed one after another. -/
theorem run_retires_queue (is : List Instr) (s : State) (he : s.err = false) (hq : s.cmdq = is.flatMap encode)
    (ho : s.params.outqDepth = none) (hd : ∀ i ∈ is, Documented s.params i) :
    ∃ t, Host.Core.run Sys2Proof.core is.length s = .next t ∧ execAll is s = .next t ∧ RetiredAll is s t := by
  induction is generalizing s with
  | nil => exact ⟨s, rfl, rfl, .nil s⟩
  | cons i is ih =>
    rw [List.flatMap_cons] at hq
    obtain ⟨hhead, htail⟩ := List.forall_mem_cons.1 hd
    obtain ⟨u, hexec, hret⟩ := exec_retires_of_documented he (outHasRoom_of_unbounded ho) hhead
    have hstep : step s = .next u := by rw [step_of_decode he (hq ▸ decode_encode_append i _), hexec]
    have hrest : u.cmdq = is.flatMap encode := by rw [hret.cmdq_eq, hq, instrWords, List.drop_left]
    rw [← hret.params_eq] at ho htail
    obtain ⟨t, hrun, hall, hrets⟩ := ih u (hret.err_eq.trans he) hrest ho htail
    exact ⟨t, (run_succ_of_step hstep is.length).trans hrun, execAll_cons_eq_next_iff.2 ⟨u, hexec, hall⟩,
      .cons hret hrets⟩

/-- Settles O50: each command retires in its turn, and what the retirements add up to is the end of the run. -/
theorem queuedCommandsRunInOrder : Obligations.QueuedCommandsRunInOrder := by
  intro is s he hq ho hd
  obtain ⟨t, hrun, hall, hret⟩ := run_retires_queue is s he hq ho hd
  have hempty : t.cmdq = [] := by rw [hret.cmdq_eq, hq, List.drop_length]
  have hend : endedWell t = true := by simp [endedWell, hempty, hret.err_eq, he]
  obtain ⟨vs, hout, hlen⟩ := hret.out_eq_append
  exact ⟨hrun.trans hall.symm, t, hrun, hend, hret.cix_eq, by rw [hout, List.take_left],
    by rw [hout, List.length_append, hlen]⟩

/-! ### Reset -/

/-- Settles O45: `State.reset` holds the values of 10_state.md R34, and the host's reset is `resetBlock`. -/
theorem resetLeavesTheListedValues : Obligations.ResetLeavesTheListedValues := by
  rintro t (rfl | ⟨s, h⟩)
  · exact ⟨rfl, rfl, rfl, rfl, rfl, rfl, rfl, rfl, rfl, rfl⟩
  · cases h
    exact ⟨resetBlock_key s, resetBlock_acc s, resetBlock_st s, resetBlock_alg s, resetBlock_err s,
      resetBlock_cause s, resetBlock_cix s, resetBlock_fcix s, resetBlock_cmdq s, resetBlock_out s⟩

end Sys2Proof.Machine
end

section
/-! PROOFS. The published anchors of the reference instantiation (95_test_vectors.md 4a and 5a), phase by phase as the
traces of 41_sip_lane_pipeline.md R117 and 95_test_vectors.md 5c go. -/

namespace Sys2Proof.Machine

/-! ### The phases on short messages -/

/-- R117 (a): on the empty message no block is absorbed and the tail word is 0. -/
theorem sipLanes_nil (c d : Nat) (k0 k1 : Word) :
    sipLanes c d k0 k1 [] = sipFinal d (sipRounds c (sipSeed k0 k1)) := by
  have hblocks : sipBlocks c (sipSeed k0 k1) [] = sipSeed k0 k1 := rfl
  have htail : sipTailWord [] = 0 := by decide
  simp [sipLanes, hblocks, htail, sipAbsorb]

/-- R113 on a message with one full block. -/
theorem sipBlocks_of_one_block {m : List Byte} (h : m.length / 8 = 1) (c : Nat) (v : Quad) :
    sipBlocks c v m = sipAbsorb c v (le64 (slice m 0 8)) := by
  simp [sipBlocks, h]

/-- R141 (a): on the empty message neither the block loop nor the tail runs. -/
theorem hwyLanes_nil (k : Quad) : hwyLanes k [] = hwyRounds 4 (hwySeed k) := rfl

/-- R135, R136: a message of 1 to 31 bytes is all tail. -/
theorem hwyLanes_of_tail_only {m : List Byte} (h0 : m ≠ []) (h : m.length < 32) (k : Quad) :
    hwyLanes k m = hwyRounds 4 (hwyTail (hwySeed k) m) := by
  simp [hwyLanes, hwyBlocks, Nat.div_eq_of_lt h, Nat.mod_eq_of_lt h, h0]

/-! ### The published key and its seeds -/

/-- The key bytes `00 01 ... 1f` of 95_test_vectors.md 5a; SipHash takes the first two words (4a). -/
def anchorKey : Quad := ⟨0x0706050403020100, 0x0f0e0d0c0b0a0908, 0x1716151413121110, 0x1f1e1d1c1b1a1918⟩

theorem sipSeed_anchorKey : sipSeed anchorKey.x0 anchorKey.x1 =
    ⟨0x7469686173716475, 0x6b617f6d656e6665, 0x6b7f62616d677361, 0x7b6b696e727e6c7b⟩ := by decide

/-- The seed of trace T1 in 95_test_vectors.md 5c. -/
theorem hwySeed_anchorKey : hwySeed anchorKey =
    { v0 := ⟨0xdce0d0d1fd4ecf2f, 0xab07352e229538d8, 0x040f9f3a10626254, 0x3b2177949eb911cb⟩
      v1 := ⟨0x38d19f10cc08f097, 0xcba6f861baff8780, 0xad4677df23ff1978, 0x5e3238fe27ce0e6b⟩
      m0 := hwyInit0
      m1 := hwyInit1 } := by decide

/-! ### SipHash on the empty message -/

theorem sip24_anchorKey_nil : sip 2 4 anchorKey.x0 anchorKey.x1 [] = 0x726fdb47dd0e0e31 := by
  simp only [sip, sipLanes_nil, sipSeed_anchorKey]
  decide

theorem sip13_anchorKey_nil : sip 1 3 anchorKey.x0 anchorKey.x1 [] = 0xabac0158050fc4dc := by
  simp only [sip, sipLanes_nil, sipSeed_anchorKey]
  decide

/-! ### The worked example of the SipHash paper, the trace of R117 (e) -/

/-- The message `00 01 ... 0e`: one block and a tail of seven bytes. -/
def sipExample : List Byte := [0, 1, 2, 3, 4, 5, 6, 7, 8, 9, 10, 11, 12, 13, 14]

theorem sipBlocks_sipExample : sipBlocks 2 (sipSeed anchorKey.x0 anchorKey.x1) sipExample =
    ⟨0x4a017198de0a59e0, 0x0d52f6f62a4f59a4, 0x634cb3577b01fd3d, 0xa5224d6f55c7d9c8⟩ := by
  have hword : le64 (slice sipExample 0 8) = 0x0706050403020100 := by decide
  rw [sipBlocks_of_one_block rfl, hword, sipSeed_anchorKey]
  decide

theorem sipTailWord_sipExample : sipTailWord sipExample = 0x0f0e0d0c0b0a0908 := by decide

theorem sipAbsorb_tail_sipExample :
    sipAbsorb 2 ⟨0x4a017198de0a59e0, 0x0d52f6f62a4f59a4, 0x634cb3577b01fd3d, 0xa5224d6f55c7d9c8⟩ 0x0f0e0d0c0b0a0908 =
      ⟨0x3c85b3ab6f55be51, 0x414fc3fb98efe374, 0xccf13ea527b9f4bd, 0x5293f5da84008f82⟩ := by decide

theorem sipLanes_sipExample : sipLanes 2 4 anchorKey.x0 anchorKey.x1 sipExample =
    ⟨0xf6bcd53893fecff1, 0x54b9964c7ea0d937, 0x1b38329c099bb55a, 0x1814bb89ad7be679⟩ := by
  rw [sipLanes, sipBlocks_sipExample, sipTailWord_sipExample, sipAbsorb_tail_sipExample]
  decide

theorem sip24_anchorKey_sipExample : sip 2 4 anchorKey.x0 anchorKey.x1 sipExample = 0xa129ca6149be45e5 := by
  simp only [sip, sipLanes_sipExample]
  decide

/-! ### HighwayHash -/

/-- The end of trace T1 of 95_test_vectors.md 5c. -/
theorem hwyLanes_anchorKey_nil : hwyLanes anchorKey [] =
    { v0 := ⟨0xec4d6bd3c3ad6e9a, 0x838d481404ba7846, 0x228441d56843e3e1, 0x89802523f0f86979⟩
      v1 := ⟨0xf6c8279baaf9e3f1, 0x5585627950addb0d, 0x206e88b82962264e, 0x44921b3240015ce9⟩
      m0 := ⟨0x60ce32440d3add5d, 0xa9d3a38906990a3e, 0x6c961c703e357b8c, 0x27603e79ccb6d497⟩
      m1 := ⟨0x4c96912aa6e03e6b, 0x0909ac134c96390d, 0x98efab188a781837, 0xb9d71e78adaf9520⟩ } := by
  rw [hwyLanes_nil, hwySeed_anchorKey]
  decide

theorem hwy_anchorKey_nil : hwy anchorKey [] = 0x907a56de22c26e53 := by
  simp only [hwy, hwyLanes_anchorKey_nil]
  decide

/-- A tail of one byte, which R136 puts at three positions of the packet. -/
theorem hwy_anchorKey_one : hwy anchorKey [0] = 0x7eab43aac7cddd78 := by
  simp only [hwy, hwyLanes_of_tail_only (m := [0]) (by decide) (by decide), hwySeed_anchorKey]
  decide

/-- A tail of three bytes, which R136 puts at one position each. -/
theorem hwy_anchorKey_three : hwy anchorKey [0, 1, 2] = 0x5c6befab8a463d80 := by
  simp only [hwy, hwyLanes_of_tail_only (m := [0, 1, 2]) (by decide) (by decide), hwySeed_anchorKey]
  decide

/-- Settles O42: `digest .reference` is the lane pipeline of its algorithm on the words of `anchorKey`. -/
theorem referenceAnchors : Obligations.ReferenceAnchors :=
  ⟨sip24_anchorKey_sipExample, sip24_anchorKey_nil, sip13_anchorKey_nil,
    hwy_anchorKey_nil, hwy_anchorKey_one, hwy_anchorKey_three⟩

end Sys2Proof.Machine
end
